-- ==== Sys2Proof/Word.lean ====
section
/-! DEFINITION. The words of the machine (spec/00_scope.md R5): every value is unsigned, 8 bits wide but for the
9-bit program counter. -/

namespace Sys2Proof

/-- A byte: a memory cell, a register, an opcode, an operand (R5, R45). -/
abbrev Byte := BitVec 8

/-- The program counter's value: 9 bits, 0..511 (10_state.md R24). -/
abbrev PcWord := BitVec 9

/-- The index of a general register that exists, 0..7 (R20, R21). -/
abbrev RegIdx := Fin 8

end Sys2Proof
end

