-- ==== Sys2Proof/Syntax.lean ====
section
/-! DEFINITION. The instructions: one constructor for each row of spec/opcode_table.json. -/

namespace Sys2Proof

/-- An instruction with its operand bytes as they stand in memory (30_encoding.md R62, R64). A register operand is
the WHOLE byte, 0..255: an index of 8 or more is an executable form, which raises when it is checked (10_state.md
R21), so it is not shut out here. DEDUCED (log 12), safe. -/
inductive Instr
  /-- HALT, format N0 (R91). -/
  | halt
  /-- LOAD_IMMEDIATE r, v, format N2: register index byte, immediate byte (R92). -/
  | loadImmediate (r v : Byte)
  /-- MULTIPLY a, b, format N2: destination index byte, source index byte (R93). -/
  | multiply (a b : Byte)
  /-- PRINT_REGISTER r, format N1: register index byte (R94). -/
  | printRegister (r : Byte)
  deriving DecidableEq, Repr

end Sys2Proof
end

