-- ==== Sys2Proof/WellFormed.lean ====
section
/-! DEFINITION. Which instructions have only operands that name something: spec/opcode_table.json says of each
register operand "register index, must be < 8". An immediate may be any byte. -/

namespace Sys2Proof

/-- The operand byte names a register that exists (10_state.md R21). -/
def isRegisterIndex (b : Byte) : Bool := b.toNat < 8

/-- Every register operand is below 8. An ill-formed instruction still executes: it takes the RegisterIndexFault
(R21, R134). -/
def Instr.wellFormed : Instr → Bool
  | .halt => true
  | .loadImmediate r _ => isRegisterIndex r
  | .multiply a b => isRegisterIndex a && isRegisterIndex b
  | .printRegister r => isRegisterIndex r

end Sys2Proof
end

