-- ==== Sys2Proof/Decode.lean ====
section
/-! DEFINITION. Decoding and encoding (spec/30_encoding.md): the length field, the dispatch table of R64, a decoder
total on any bytes, and the encoder written from the same table. The machine's fetch uses `dispatch` and
`readOperands`, the same two functions the decoder of a byte list uses. -/

namespace Sys2Proof

/-- The handlers the dispatch table maps opcodes to (42_execution_loop.md R112). -/
inductive Handler
  | halt
  | loadImmediate
  | multiply
  | printRegister
  deriving DecidableEq, Repr

/-- Why a list of bytes is not an instruction. -/
inductive DecodeError
  /-- There is no opcode byte. -/
  | noBytes
  /-- The opcode byte is not in the dispatch table (R66). -/
  | unknownOpcode (op : Byte)
  /-- Operand byte k (1 or 2) is missing. -/
  | missingOperand (k : Nat)
  deriving DecidableEq, Repr

/-- The dispatch table: exactly four opcodes (R64, R112). -/
def dispatchTable : List (Byte × Handler) :=
  [(0b00000001#8, .halt), (0b10000010#8, .loadImmediate), (0b10100010#8, .multiply), (0b01000111#8, .printRegister)]

/-- The lookup matches the whole byte; every other byte gives none (R61, R66, R112). -/
def dispatch (op : Byte) : Option Handler := dispatchTable.lookup op

/-- `op[7:6]`, the number of operand bytes that follow (R60, R61; bit numbering R7). -/
def operandCount (op : Byte) : Nat := (op.extractLsb 7 6).toNat

/-- The length in bytes of the instruction whose opcode is `op` (R60). -/
def instrLength (op : Byte) : Nat := operandCount op + 1

/-- The handler's operand reads, in address order (R63; 41_instructions.md R92 to R94): `read k` reads the byte k
places after the opcode. PRINT_REGISTER reads one byte only (90_conflicts.md C5). -/
def readOperands {ε : Type} (read : Nat → Except ε Byte) : Handler → Except ε Instr
  | .halt => .ok .halt
  | .loadImmediate => do
    let r ← read 1
    let v ← read 2
    return .loadImmediate r v
  | .multiply => do
    let a ← read 1
    let b ← read 2
    return .multiply a b
  | .printRegister => do
    let r ← read 1
    return .printRegister r

/-- Byte k of a list that begins with the opcode. -/
def operandOfBytes (bs : List Byte) (k : Nat) : Except DecodeError Byte :=
  match bs[k]? with
  | some b => .ok b
  | none => .error (.missingOperand k)

/-- The decoder, total on any bytes (R69): the instruction and the bytes after it, or a rejection by name. -/
def decode (bs : List Byte) : Except DecodeError (Instr × List Byte) :=
  match bs with
  | [] => .error .noBytes
  | op :: _ =>
    match dispatch op with
    | none => .error (.unknownOpcode op)
    | some h =>
      match readOperands (operandOfBytes bs) h with
      | .error e => .error e
      | .ok i => .ok (i, bs.drop (instrLength op))

/-- The handler of an instruction. -/
def Instr.handler : Instr → Handler
  | .halt => .halt
  | .loadImmediate _ _ => .loadImmediate
  | .multiply _ _ => .multiply
  | .printRegister _ => .printRegister

/-- The opcode byte of an instruction (R64). -/
def Instr.opcode : Instr → Byte
  | .halt => 0b00000001#8
  | .loadImmediate _ _ => 0b10000010#8
  | .multiply _ _ => 0b10100010#8
  | .printRegister _ => 0b01000111#8

/-- The operand bytes of an instruction, in address order (R62). -/
def Instr.operands : Instr → List Byte
  | .halt => []
  | .loadImmediate r v => [r, v]
  | .multiply a b => [a, b]
  | .printRegister r => [r]

/-- The encoder: the opcode and then the operand bytes, at ascending addresses (R45, R62, R64). -/
def encode (i : Instr) : List Byte := i.opcode :: i.operands

/-- A number of `nbits` bits laid out as the bytes of the longest instruction, the byte of bits 7..0 first and every
bit above `nbits` zero. -/
def tableBytes (nbits w : Nat) : List Byte :=
  let v := w % 2 ^ nbits
  [BitVec.ofNat 8 v, BitVec.ofNat 8 (v / 2 ^ 8), BitVec.ofNat 8 (v / 2 ^ 16)]

/-- The instruction the decoder reads from a word numbered as spec/opcode_table.json numbers it. -/
def decodeTableWord (nbits w : Nat) : Option Instr :=
  match decode (tableBytes nbits w) with
  | .ok (i, _) => some i
  | .error _ => none

end Sys2Proof
end

