-- ==== Sys2Proof/Config.lean ====
section
/-! DEFINITION. What is fixed for this hardware and is not state: the sizes of spec/00_scope.md R5, the ALU's
vocabulary (40_alu.md R80), and the one value the spec leaves to the host's renderer (10_state.md R31). -/

namespace Sys2Proof

/-- MEM_SIZE: memory cells, addresses 0..255 (R5). -/
def Config.memSize : Nat := 256

/-- SP_INIT: the reset value of register 7 (R5, R22). -/
def Config.spInit : Byte := 0xF4

/-- The ALU's operation select: the closed vocabulary {MUL, ADD} of R80, and every select outside it, which R83
gives a defined outcome. DESIGN CHOICE (log 6), safe: an unrecognised select is known by a number the spec does
not assign; no opcode passes one. -/
inductive AluOp
  | mul
  | add
  | unrecognised (select : Nat)
  deriving DecidableEq, Repr

/-- The line terminator of the host's rendering of `out`: R31 says "one line terminator" and no file of the spec
says which characters it is. A FREE VALUE (log 10), safe: nothing can evaluate it. -/
opaque Config.lineTerminator : List Char

end Sys2Proof
end

