-- ==== Sys2Proof/Machine/State.lean ====
section
/-! DEFINITION. The machine's state, exactly the tuple of spec/10_state.md R34, its reset (70_reset_and_hazards.md
R150), and the reasons for which a step or a load has no next state. -/

namespace Sys2Proof.Machine

/-- `status` (10_state.md R29). -/
inductive Status
  | running
  | halted
  | faulted
  deriving DecidableEq, Repr

/-- The stop causes 1 to 6 of 60_exceptions.md R130. Code 0, None, is `none` of the field `cause`. -/
inductive StopCause
  | haltInstruction
  | unknownOpcode
  | unsupportedOperation
  | memoryBoundsFault
  | registerIndexFault
  | loadOverflow
  deriving DecidableEq, Repr

/-- A diagnostic event `(cause, pc, op, info)` (10_state.md R32; 90_conflicts.md C8). It carries no text (D13). -/
structure DiagEvent where
  /-- the stop cause -/
  cause : StopCause
  /-- `pc` at the start of the stopping step -/
  pc : PcWord
  /-- the fetched opcode byte; none when the fetch itself faulted or the event comes from the load port -/
  op : Option Byte
  /-- the value R130 records for the cause: address, index byte, operation select or image length -/
  info : Option Nat
  deriving DecidableEq, Repr

/-- What `raise Fault(c, info)` carries (60_exceptions.md R133): every fault of R130 records a number. -/
structure Raise where
  cause : StopCause
  info : Nat
  deriving DecidableEq, Repr

/-- Memory, as the cells that differ from 0x00, at strictly rising addresses (`Memory.wf` of Ops.lean). -/
abbrev Memory := List Host.Cell

/-- The whole state of the core (10_state.md R34: "No other state exists"). -/
structure State where
  /-- 256 cells of a byte (20_memory.md R40) -/
  mem : Memory
  /-- the general registers R0 to R7 (R20) -/
  x : Vector Byte 8
  /-- the program counter, 9 bits (R23, R24) -/
  pc : PcWord
  /-- the flags register, carried and never used (R26) -/
  fl : Byte
  /-- the instruction register: the opcode fetched last (R27) -/
  ir : Byte
  /-- Running, Halted or Faulted (R29) -/
  status : Status
  /-- the stop cause; none while Running (R30) -/
  cause : Option StopCause
  /-- the output stream (R31) -/
  out : List Byte
  /-- the diagnostic stream (R32) -/
  diag : List DiagEvent
  /-- a step has run (R35) -/
  started : Bool
  deriving DecidableEq, Repr

/-- The running flag, a derived value (R28). -/
def State.running (s : State) : Bool := s.status == .running

/-- Why `step` has no next state. The faults of the hardware are NOT here: they are next states whose status is
Faulted (60_exceptions.md R133). Both are raised by `step` alone and both are safe: the spec enables no step there
(log 7). -/
inductive Fault
  /-- Raised by `step` when status = Halted (42_execution_loop.md R115: "no step is enabled"). Safe. -/
  | stepWhileHalted
  /-- Raised by `step` when status = Faulted (42_execution_loop.md R116: "no step is enabled"). Safe. -/
  | stepWhileFaulted
  deriving DecidableEq, Repr

/-- Why an action is refused. -/
inductive Refusal
  /-- An instruction without a meaning; raised by exec's arms. No arm raises it: every instruction has its meaning. Safe. -/
  | notModelled (mnemonic : String)
  /-- Raised by `load` once a step has run (20_memory.md R44: "if started then refuse"). Safe (log 9). -/
  | loadAfterStart
  deriving DecidableEq, Repr

/-- Machine construction (70_reset_and_hazards.md R150). R0 to R6, `fl` and `ir` are 0 by the spec's own decisions
D1, D2, D3 (log 1, log 2). -/
def State.reset : State where
  mem := []
  x := #v[0#8, 0#8, 0#8, 0#8, 0#8, 0#8, 0#8, Config.spInit]
  pc := 0#9
  fl := 0#8
  ir := 0#8
  status := .running
  cause := none
  out := []
  diag := []
  started := false

end Sys2Proof.Machine
end

