-- ==== Sys2Proof/Machine/Ops.lean ====
section
/-! DEFINITION. The named operations over memory, registers and run control: the primitives of spec/00_scope.md R9,
and the one shared operation by which a fault stops the machine (60_exceptions.md R133). -/

namespace Sys2Proof.Machine

/-! ## Memory as a list of cells (20_memory.md R40) -/

/-- What an unlisted address reads as: memory is zero-initialised (R40). -/
def Memory.unlisted : Byte := 0#8

/-- The canonical form: strictly rising addresses below 256, and no cell that holds what an unlisted one reads as. -/
abbrev Memory.wf (m : Memory) : Prop :=
  m.Pairwise (fun c d => c.1 < d.1) ∧ ∀ c ∈ m, c.1 < Config.memSize ∧ c.2 ≠ Memory.unlisted

/-- The byte at an address. -/
def Memory.read : Memory → Nat → Byte
  | [], _ => Memory.unlisted
  | c :: m, a => if c.1 = a then c.2 else Memory.read m a

/-- Memory with one byte written; writing 0x00 removes the cell, which keeps the canonical form. -/
def Memory.write (m : Memory) (a : Nat) (v : Byte) : Memory :=
  m.filter (fun c => c.1 < a) ++ (if v = Memory.unlisted then [] else [(a, v)]) ++ m.filter (fun c => a < c.1)

/-- `MemRead(a, 1)`: a byte, or MemoryBoundsFault(a) above 255; never reduced mod 256, no side effect (R42). -/
def memRead (a : Nat) (s : State) : Except Raise Byte :=
  if a < Config.memSize then .ok (s.mem.read a) else .error ⟨.memoryBoundsFault, a⟩

/-- `MemWrite(a, 1, v)`: one cell, nothing else (R43). Above 255, where R43 says no caller writes, the bounds fault of
D5 and D10. DEDUCED (log 15), safe. -/
def memWrite (a : Nat) (v : Byte) (s : State) : Except Raise State :=
  if a < Config.memSize then .ok { s with mem := s.mem.write a v } else .error ⟨.memoryBoundsFault, a⟩

/-- `MemWrite` of successive bytes from address a on (the loop of R44). -/
def memWriteAll (a : Nat) : List Byte → State → Except Raise State
  | [], s => .ok s
  | v :: vs, s => do
    let t ← memWrite a v s
    memWriteAll (a + 1) vs t

/-! ## Registers (10_state.md R20, R21) -/

/-- `x[i]`. No register is hardwired (R20). -/
def getReg (i : RegIdx) (s : State) : Byte := s.x.get i

/-- `x[i] <- v`. R7 is an ordinary register (R22). -/
def setReg (i : RegIdx) (v : Byte) (s : State) : State := { s with x := s.x.set i v }

/-- `regIndex(b)`: b itself below 8, else RegisterIndexFault(b); not masked, not clamped (R21). -/
def regIndex (b : Byte) : Except Raise RegIdx :=
  if h : b.toNat < 8 then .ok ⟨b.toNat, h⟩ else .error ⟨.registerIndexFault, b.toNat⟩

/-! ## Output and diagnostic streams (R31, R32) -/

/-- `emit_out(v)` (R31). -/
def emitOut (v : Byte) (s : State) : State := { s with out := s.out ++ [v] }

/-- `emit_diag(cause, pc, op, info)` (R32). -/
def emitDiag (c : StopCause) (pc : PcWord) (op : Option Byte) (info : Option Nat) (s : State) : State :=
  { s with diag := s.diag ++ [⟨c, pc, op, info⟩] }

/-! ## Stopping (60_exceptions.md). This hardware has no trap entry and no return from one (R137, R138): stopping
takes the place of both. -/

/-- The code of a stop cause; 0 is None (R130). -/
def causeCode : Option StopCause → Nat
  | none => 0
  | some .haltInstruction => 1
  | some .unknownOpcode => 2
  | some .unsupportedOperation => 3
  | some .memoryBoundsFault => 4
  | some .registerIndexFault => 5
  | some .loadOverflow => 6

/-- The status a stop cause leaves: two are halts, four are fatal (R130, R131). -/
def statusAfter : Option StopCause → Status
  | none => .running
  | some .haltInstruction | some .unknownOpcode => .halted
  | some .unsupportedOperation | some .memoryBoundsFault | some .registerIndexFault | some .loadOverflow => .faulted

/-- `halt(c)`: status and cause, and nothing else (R132). -/
def haltWith (c : StopCause) (s : State) : State := { s with status := .halted, cause := some c }

/-- `raise Fault(c, info)`: taking a fault, the ONE operation every fault goes through (R133). `s` is the state with
none of the instruction's writes to x, mem, out or pc in it, so they are discarded; `ir` and `started` are kept. -/
def raiseFault (op : Option Byte) (r : Raise) (s : State) : State :=
  emitDiag r.cause s.pc op (some r.info) { s with status := .faulted, cause := some r.cause }

/-- The end of a handler that began in `s`: its state, or, if it raised, the fault taken in `s` itself with `op` the
fetched byte, which `ir` holds (R90, R133). -/
def finishHandler (s : State) : Except Raise State → Host.Outcome State Fault Refusal
  | .ok t => .next t
  | .error r => .next (raiseFault (some s.ir) r s)

end Sys2Proof.Machine
end

