-- ==== Sys2Proof/Machine/Flags.lean ====
section
/-! DEFINITION. The flags register (spec/10_state.md R26). No instruction reads or writes it and the ALU has no flag,
carry, overflow or zero output (40_alu.md R84), so the hardware has no flag computation at all. -/

namespace Sys2Proof.Machine

/-- `fl` as the host observes it: one 8-bit field with no assigned bits (R26, R33). -/
def flags (s : State) : Byte := s.fl

/-- The flags after an ALU operation on operands a and b: those before it (R81, R82, R84). -/
def flagsAfterAlu (_op : AluOp) (_a _b : Byte) (fl : Byte) : Byte := fl

end Sys2Proof.Machine
end

