-- ==== Sys2Proof/Machine/Alu.lean ====
section
/-! DEFINITION. The ALU (spec/40_alu.md). MULTIPLY calls it with MUL; no opcode reaches ADD or an unrecognised
select (R82, R83), which are modelled as the ALU's own contract asks. -/

namespace Sys2Proof.Machine

/-- The result: the exact product or sum, reduced mod 256, never saturated (R81, R82, R85); UnsupportedOperation for a
select outside the vocabulary (R83). -/
def aluResult : AluOp → Byte → Byte → Except Raise Byte
  | .mul, a, b => .ok (BitVec.ofNat 8 (a.toNat * b.toNat % 256))
  | .add, a, b => .ok (BitVec.ofNat 8 ((a.toNat + b.toNat) % 256))
  | .unrecognised select, _, _ => .error ⟨.unsupportedOperation, select⟩

/-- `ALU(op, d, s)`: both operands are read first, and only `x[d]` is written (R80, R155). -/
def alu (op : AluOp) (d src : RegIdx) (s : State) : Except Raise State := do
  let a := getReg d s
  let b := getReg src s
  let v ← aluResult op a b
  return { setReg d v s with fl := flagsAfterAlu op a b s.fl }

end Sys2Proof.Machine
end

