-- ==== Sys2Proof/Machine/Operands.lean ====
section
/-! DEFINITION. The operand forms (spec/30_encoding.md R63): an operand byte is read at `pc + k`, and is either an
immediate, used as it is, or a register index, checked by `regIndex`. -/

namespace Sys2Proof.Machine

/-- `MemRead(pc+k, 1)`, while `pc` still holds the opcode's address. The sum is a plain number, so it does not wrap
(00_scope.md R8; 20_memory.md R42). -/
def operandByte (s : State) (k : Nat) : Except Raise Byte := memRead (s.pc.toNat + k) s

/-- The immediate operand: the byte itself, no extension, scaling or shift (R63). -/
def immediate (b : Byte) : Byte := b

/-- The register operand: checked, never masked (R63; 10_state.md R21). -/
def registerOperand (b : Byte) : Except Raise RegIdx := regIndex b

end Sys2Proof.Machine
end

