-- ==== Sys2Proof/Machine/Instructions.lean ====
section
/-! DEFINITION. The meanings of the four instructions: the handlers of spec/41_instructions.md, after their operand
bytes have been read. A handler writes no `pc`, `ir`, `fl` or memory (R90); the loop advances `pc` afterwards
(42_execution_loop.md R114). A handler that raises has no effect but the fault itself (R90, 60_exceptions.md R133). -/

namespace Sys2Proof.Machine

/-- HALT (R91): no operand, no diagnostic. -/
def execHalt (s : State) : Host.Outcome State Fault Refusal := .next (haltWith .haltInstruction s)

/-- LOAD_IMMEDIATE r, v (R92): `r <- regIndex(rb); x[r] <- v`. -/
def execLoadImmediate (rb v : Byte) (s : State) : Host.Outcome State Fault Refusal :=
  finishHandler s do
    let r ← registerOperand rb
    return setReg r (immediate v) s

/-- MULTIPLY a, b (R93): `a <- regIndex(ab); b <- regIndex(bb); ALU(MUL, a, b)`; operand 1 is checked first (R135). -/
def execMultiply (ab bb : Byte) (s : State) : Host.Outcome State Fault Refusal :=
  finishHandler s do
    let a ← registerOperand ab
    let b ← registerOperand bb
    alu .mul a b s

/-- PRINT_REGISTER r (R94): `r <- regIndex(rb); emit_out(x[r])`. -/
def execPrintRegister (rb : Byte) (s : State) : Host.Outcome State Fault Refusal :=
  finishHandler s do
    let r ← registerOperand rb
    return emitOut (getReg r s) s

end Sys2Proof.Machine
end

