-- ==== Sys2Proof/Machine/Dispatch.lean ====
section
/-! DEFINITION. One arm per instruction (spec/42_execution_loop.md R112). -/

namespace Sys2Proof.Machine

def exec (i : Instr) (s : State) : Host.Outcome State Fault Refusal :=
  match i with
  | .halt => Sys2Proof.Machine.execHalt s
  | .loadImmediate r v => Sys2Proof.Machine.execLoadImmediate r v s
  | .multiply a b => Sys2Proof.Machine.execMultiply a b s
  | .printRegister r => Sys2Proof.Machine.execPrintRegister r s

end Sys2Proof.Machine
end

