-- ==== Sys2Proof/Machine/Loop.lean ====
section
/-! DEFINITION. The parts of one step around the handler (spec/42_execution_loop.md R110 to R116): whether a step is
enabled, the fetch, the dispatch with the operand reads, and the advance of the program counter. -/

namespace Sys2Proof.Machine

/-- A step is enabled exactly when status = Running (R110, R115, R116); otherwise the reason there is none. -/
def stepDisabled (s : State) : Option Fault :=
  match s.status with
  | .running => none
  | .halted => some .stepWhileHalted
  | .faulted => some .stepWhileFaulted

/-- `started <- true`, the first act of a step (R110; 10_state.md R35). -/
def beginStep (s : State) : State := { s with started := true }

/-- `ir <- op` (R111; 10_state.md R27). -/
def setIr (op : Byte) (s : State) : State := { s with ir := op }

/-- An unknown opcode: a handled stop with a diagnostic; `pc` is not advanced and no operand byte is read (R113). -/
def unknownOpcodeHalt (op : Byte) (s : State) : State :=
  emitDiag .unknownOpcode s.pc (some op) none (haltWith .unknownOpcode s)

/-- Fetch, dispatch and operand reads, in the order of R110 and 60_exceptions.md R135: the instruction and the state
its handler starts in, or the state in which the step has already ended. -/
def fetchInstr (s : State) : Except State (Instr × State) :=
  match memRead s.pc.toNat s with
  | .error r => .error (raiseFault none r s)
  | .ok op =>
    let t := setIr op s
    match dispatch op with
    | none => .error (unknownOpcodeHalt op t)
    | some h =>
      match readOperands (operandByte t) h with
      | .error r => .error (raiseFault (some op) r t)
      | .ok i => .ok (i, t)

/-- `pc <- pc + ir[7:6] + 1`, kept in 9 bits and not reduced mod 256 (R114; 10_state.md R24). A step advances only
from pc ≤ 255, so the 9 bits always suffice (log 3). -/
def advancePc (s : State) : State := { s with pc := BitVec.ofNat 9 (s.pc.toNat + instrLength s.ir) }

/-- After the handler: the advance, unless the handler raised, which ends the step (R110, R114, R133). The advance also
follows HALT (R91). DEDUCED (log 8), safe: a handler starts in Running, so Faulted after it means that it raised. -/
def afterHandler (s : State) : State := if s.status = .faulted then s else advancePc s

end Sys2Proof.Machine
end

