-- ==== Sys2Proof/Machine/Step.lean ====
section
/-! DEFINITION. One step of the machine (spec/42_execution_loop.md R110), the loop that repeats it (R117), and the word
the host places for the next fetch. -/

namespace Sys2Proof.Machine

/-- One whole instruction (R110). -/
def step (s : State) : Host.Outcome State Fault Refusal :=
  match stepDisabled s with
  | some f => .fault f
  | none =>
    match fetchInstr (beginStep s) with
    | .error t => .next t
    | .ok (i, t) =>
      match exec i t with
      | .next u => .next (afterHandler u)
      | .fault f => .fault f
      | .refused r => .refused r

/-- `while status = Running: step()`, at most `n` times round; the status is tested before every fetch (R117). -/
def runLoop : Nat → State → Host.Outcome State Fault Refusal
  | 0, s => .next s
  | n + 1, s =>
    if s.running then
      match step s with
      | .next t => runLoop n t
      | .fault f => .fault f
      | .refused r => .refused r
    else .next s

/-- A whole run (R117): every run stops within 257 steps (R122; log 17). -/
def run (s : State) : Host.Outcome State Fault Refusal := runLoop 257 s

/-- `s` with the bytes of an instruction stored at `pc`, where `step` fetches next; a byte that would lie above 255 has
no cell and is dropped. It stands for the load port (log 13). -/
def State.withFetchWord (s : State) (nbits w : Nat) : State :=
  match memWriteAll s.pc.toNat ((tableBytes nbits w).take (Config.memSize - s.pc.toNat)) s with
  | .ok t => t
  | .error _ => s

end Sys2Proof.Machine
end

