-- ==== Sys2Proof/Machine/Assembler.lean ====
section
/-! DEFINITION. The assembler syntax of spec/30_encoding.md R70 and R71: lines of text to the bytes of an image. It is
notation for images, not part of the machine. What R70 leaves open of the text (blanks, digit case, leading zeros) is a
DESIGN CHOICE (log 14), safe: no rule of the machine reads it. -/

namespace Sys2Proof.Machine

/-- One line of R70's table. Register operands are R0 to R7; a directive has at least one byte. -/
inductive AsmLine
  | halt
  | loadImmediate (r : RegIdx) (v : Byte)
  | multiply (a b : RegIdx)
  | printRegister (r : RegIdx)
  | bytes (b : Byte) (bs : List Byte)
  deriving DecidableEq, Repr

/-- Why a line is not in R70's syntax. -/
inductive AsmError
  | unknownMnemonic
  | badOperands
  deriving DecidableEq, Repr

/-- A register's number as an operand byte. -/
def registerByte (r : RegIdx) : Byte := BitVec.ofNat 8 r

/-- The bytes of a line (R70): an instruction's encoding, or the directive's bytes as written (R71). -/
def asmBytes : AsmLine → List Byte
  | .halt => encode .halt
  | .loadImmediate r v => encode (.loadImmediate (registerByte r) v)
  | .multiply a b => encode (.multiply (registerByte a) (registerByte b))
  | .printRegister r => encode (.printRegister (registerByte r))
  | .bytes b bs => b :: bs

/-- A blank, a tab or a carriage return. -/
def isBlank (c : Char) : Bool := c == ' ' || c == '\t' || c == '\r'

/-- Without the blanks at both ends. -/
def trim (cs : List Char) : List Char := ((cs.dropWhile isBlank).reverse.dropWhile isBlank).reverse

/-- The value of a digit, up to base 16. -/
def digitValue (c : Char) : Option Nat :=
  if '0' ≤ c ∧ c ≤ '9' then some (c.toNat - '0'.toNat)
  else if 'a' ≤ c ∧ c ≤ 'f' then some (c.toNat - 'a'.toNat + 10)
  else if 'A' ≤ c ∧ c ≤ 'F' then some (c.toNat - 'A'.toNat + 10)
  else none

/-- A numeral in a base: one digit or more, each below the base. -/
def digitsValue (base : Nat) (cs : List Char) : Option Nat :=
  if cs = [] then none
  else
    cs.foldl
      (fun acc c =>
        match acc, digitValue c with
        | some n, some d => if d < base then some (n * base + d) else none
        | _, _ => none)
      (some 0)

/-- A byte operand, 0..255, in decimal, `0x` hexadecimal or `0b` binary (R70). -/
def parseByte (cs : List Char) : Option Byte :=
  let value := match cs with
    | '0' :: 'x' :: ds => digitsValue 16 ds
    | '0' :: 'b' :: ds => digitsValue 2 ds
    | ds => digitsValue 10 ds
  match value with
  | some n => if n < 256 then some (BitVec.ofNat 8 n) else none
  | none => none

/-- A register operand `R<r>`, r decimal 0..7; an index of 8..255 has no register syntax (R70). -/
def parseRegister (cs : List Char) : Option RegIdx :=
  match cs with
  | 'R' :: ds =>
    match digitsValue 10 ds with
    | some n => if h : n < 8 then some ⟨n, h⟩ else none
    | none => none
  | _ => none

/-- The operands of a directive. -/
def parseBytes : List (List Char) → Option (List Byte)
  | [] => some []
  | cs :: css => do
    let b ← parseByte cs
    let bs ← parseBytes css
    return b :: bs

/-- A mnemonic and its operands, which stand between commas (R70). -/
def parseStatement (name : List Char) (operands : List (List Char)) : Except AsmError AsmLine :=
  let line : Option (Option AsmLine) :=
    if name = ['H', 'A', 'L', 'T'] then
      some (match operands with
        | [] => some .halt
        | _ => none)
    else if name = ['L', 'O', 'A', 'D', '_', 'I', 'M', 'M', 'E', 'D', 'I', 'A', 'T', 'E'] then
      some (match operands with
        | [r, v] => do return .loadImmediate (← parseRegister r) (← parseByte v)
        | _ => none)
    else if name = ['M', 'U', 'L', 'T', 'I', 'P', 'L', 'Y'] then
      some (match operands with
        | [a, b] => do return .multiply (← parseRegister a) (← parseRegister b)
        | _ => none)
    else if name = ['P', 'R', 'I', 'N', 'T', '_', 'R', 'E', 'G', 'I', 'S', 'T', 'E', 'R'] then
      some (match operands with
        | [r] => do return .printRegister (← parseRegister r)
        | _ => none)
    else if name = ['.', 'b', 'y', 't', 'e'] then
      some (match operands with
        | b :: bs => do return .bytes (← parseByte b) (← parseBytes bs)
        | [] => none)
    else none
  match line with
  | none => .error .unknownMnemonic
  | some none => .error .badOperands
  | some (some l) => .ok l

/-- One line of text: none where it holds nothing but a comment, which `;` starts (R70). -/
def parseLine (cs : List Char) : Except AsmError (Option AsmLine) :=
  let body := trim (cs.takeWhile (· != ';'))
  if body = [] then .ok none
  else
    let rest := trim (body.dropWhile (fun c => !isBlank c))
    let operands := if rest = [] then [] else (rest.splitOn ',').map trim
    (parseStatement (body.takeWhile (fun c => !isBlank c)) operands).map some

/-- The bytes of lines of text, in order. -/
def assembleLines : List (List Char) → Except AsmError (List Byte)
  | [] => .ok []
  | cs :: css => do
    let l ← parseLine cs
    let bytes ← assembleLines css
    return (l.map asmBytes).getD [] ++ bytes

/-- A program text, one instruction per line (R70), to its image. -/
def assemble (text : List Char) : Except AsmError (List Byte) := assembleLines (text.splitOn '\n')

end Sys2Proof.Machine
end

