-- ==== Sys2Proof/Machine/Load.lean ====
section
/-! DEFINITION. The load port (spec/20_memory.md R44, 70_reset_and_hazards.md R152): how a program comes into memory
before the first step. -/

namespace Sys2Proof.Machine

/-- `load(img)`: refused once a step has run; LoadOverflow(n) with no cell written above 256 bytes; else cells
0..n-1 are written and the rest of the state is kept (R44). The event of LoadOverflow has no opcode (60_exceptions.md
R133). The port asks for `started` only, so a load after a LoadOverflow is taken (log 9). -/
def load (img : List Byte) (s : State) : Host.Outcome State Fault Refusal :=
  if s.started then .refused .loadAfterStart
  else if Config.memSize < img.length then .next (raiseFault none ⟨.loadOverflow, img.length⟩ s)
  else
    match memWriteAll 0 img s with
    | .ok t => .next t
    | .error r => .next (raiseFault none r s)

/-- Zero or more loads, in order (R152). -/
def loadAll : List (List Byte) → State → Host.Outcome State Fault Refusal
  | [], s => .next s
  | img :: imgs, s =>
    match load img s with
    | .next t => loadAll imgs t
    | .fault f => .fault f
    | .refused r => .refused r

/-- The boot sequence: construction, then loads (R152). What follows is steps. -/
def bootWith (imgs : List (List Byte)) : Host.Outcome State Fault Refusal := loadAll imgs State.reset

end Sys2Proof.Machine
end

