-- ==== Sys2Proof/Machine/Output.lean ====
section
/-! DEFINITION. The host's rendering of the output stream (spec/10_state.md R31): each byte as its decimal digits, no
leading zeros, "0" for zero, and then one line terminator, which the spec leaves free (log 10). -/

namespace Sys2Proof.Machine

/-- The character of a digit 0..9. -/
def digitChar (d : Nat) : Char := Char.ofNat ('0'.toNat + d)

/-- The decimal digits of a byte, without leading zeros. -/
def decimalDigits (v : Byte) : List Char :=
  let n := v.toNat
  if n < 10 then [digitChar n]
  else if n < 100 then [digitChar (n / 10), digitChar (n % 10)]
  else [digitChar (n / 100), digitChar (n / 10 % 10), digitChar (n % 10)]

/-- One byte of `out` as one line. -/
def renderByte (v : Byte) : List Char := decimalDigits v ++ Config.lineTerminator

/-- The whole output stream as text, in execution order (41_instructions.md R94). -/
def renderOutput (s : State) : List Char := s.out.flatMap renderByte

end Sys2Proof.Machine
end

