-- ==== Sys2Proof/Safety.lean ====
section
/-! DEFINITION. What a run can reach and how it ends, in the terms the statements use. -/

namespace Sys2Proof.Machine

/-- The end of a run (spec/42_execution_loop.md R118): status ≠ Running. -/
abbrev State.ended (s : State) : Prop := s.status ≠ .running

/-- A normal end: HALT or an unknown opcode (R118, R131). -/
abbrev State.endedNormally (s : State) : Prop := s.status = .halted

/-- An abnormal end: a fault (R118, R131). -/
abbrev State.endedAbnormally (s : State) : Prop := s.status = .faulted

/-- What `cause`, `diag`, `pc` and `ir` record about the status: nothing while Running (10_state.md R30, R32); after
HALT the cause and no diagnostic (41_instructions.md R91); after an unknown opcode one event with its address and byte
(42_execution_loop.md R113); after a fault a fatal cause whose event stands last (60_exceptions.md R133). -/
def State.stopRecorded (s : State) : Prop :=
  match s.status with
  | .running => s.cause = none ∧ s.diag = []
  | .halted =>
    (s.cause = some .haltInstruction ∧ s.ir = 0x01#8 ∧ s.diag = []) ∨
      (s.cause = some .unknownOpcode ∧ s.diag = [⟨.unknownOpcode, s.pc, some s.ir, none⟩])
  | .faulted =>
    ∃ c op info, s.cause = some c ∧ statusAfter (some c) = .faulted ∧ (op = none ∨ op = some s.ir) ∧
      s.diag.getLast? = some ⟨c, s.pc, op, some info⟩

/-- The invariant of the machine: what holds at reset and what every load and every step keeps. -/
structure State.Consistent (s : State) : Prop where
  /-- memory is in its canonical form, inside 0..255 (20_memory.md R40) -/
  memoryCanonical : s.mem.wf
  /-- "Values above 258 are not reachable" (10_state.md R24) -/
  pcReachable : s.pc.toNat ≤ 258
  /-- the record of the stop agrees with the status -/
  stopRecorded : s.stopRecorded
  /-- before the first step: pc at the entry point, nothing printed, not halted (10_state.md R35; 70 R151) -/
  freshBeforeStart : s.started = false → s.pc = 0#9 ∧ s.out = [] ∧ s.status ≠ .halted

end Sys2Proof.Machine
end

