-- ==== Sys2Proof/Certificates/Slice0/Obligations.lean ====
section
/-! DEFINITION. The statements for the provers. A rule R<n> is a rule of spec/; "D<n>" is a decision of
spec/92_eei_decisions.md, which the spec marks as its own and not the source's. Statements that rest on a decision or on
a passage the spec marks "[derived]" say so. -/

open Sys2Proof Sys2Proof.Machine

/-! ## Encoding -/

/-- Decoding and encoding agree (30_encoding.md R62 to R64): a list of bytes decodes to `i` exactly when it is the
encoding of `i` followed by the bytes left over. Every operand byte at every value, well-formed or not. -/
def Obligations.DecodeAcceptsExactlyTheEncodings : Prop :=
  ∀ (bs : List Byte) (i : Instr) (rest : List Byte), decode bs = .ok (i, rest) ↔ bs = encode i ++ rest

/-- Words written out bit by bit from the encoding tables (30_encoding.md R64, R66; 95_test_vectors.md S1 to S4). -/
def Obligations.SpecWordsDecodeToTheirInstructions : Prop :=
  decode [0b00000001#8] = .ok (.halt, []) ∧
  decode [0b10000010#8, 0b00000000#8, 0b00001000#8] = .ok (.loadImmediate 0 8, []) ∧
  decode [0b10100010#8, 0b00000000#8, 0b00000001#8] = .ok (.multiply 0 1, []) ∧
  decode [0b01000111#8, 0b00000111#8] = .ok (.printRegister 7, []) ∧
  decode [0b11111111#8, 0b00000001#8] = .error (.unknownOpcode 0xFF) ∧
  decode [0b10100000#8, 0b00000000#8, 0b00000001#8] = .error (.unknownOpcode 0xA0) ∧
  decode [0b00000000#8] = .error (.unknownOpcode 0)

/-- R60: the instruction whose opcode is `op` is `((op >> 6) & 0b11) + 1` bytes long, for every opcode supported. -/
def Obligations.InstructionLengthIsOperandCountPlusOne : Prop :=
  ∀ (op : Byte) (tail : List Byte) (i : Instr) (rest : List Byte), decode (op :: tail) = .ok (i, rest) →
    (op :: tail).length = rest.length + (((op >>> 6) &&& 0b11#8).toNat + 1)

/-- Decoding is total and rejects by name (30_encoding.md R66, R69): no byte at all, an opcode byte outside the four of
the table, or fewer operand bytes than `op[7:6]` counts, of which the first missing one is named. -/
def Obligations.DecodeRejectsByName : Prop :=
  ∀ (bs : List Byte) (e : DecodeError), decode bs = .error e ↔
    (bs = [] ∧ e = .noBytes) ∨
    (∃ op tail, bs = op :: tail ∧ op ≠ 0x01#8 ∧ op ≠ 0x82#8 ∧ op ≠ 0xA2#8 ∧ op ≠ 0x47#8 ∧ e = .unknownOpcode op) ∨
    (∃ op tail, bs = op :: tail ∧ (op = 0x82#8 ∨ op = 0xA2#8 ∨ op = 0x47#8) ∧
      tail.length < ((op >>> 6) &&& 0b11#8).toNat ∧ e = .missingOperand (tail.length + 1))

/-! ## The effect of each instruction -/

/-- HALT (41_instructions.md R91) completes in every state: status Halted, cause HaltInstruction, nothing else. -/
def Obligations.HaltStopsTheMachine : Prop :=
  ∀ s : State, exec .halt s = .next { s with status := .halted, cause := some .haltInstruction }

/-- LOAD_IMMEDIATE r, v (R92) completes for every register 0..7, R7 included, and every v: x[r] is v, nothing else
changes. -/
def Obligations.LoadImmediateWritesItsRegister : Prop :=
  ∀ (s : State) (r v : Byte) (h : r.toNat < 8), exec (.loadImmediate r v) s = .next { s with x := s.x.set r.toNat v h }

/-- MULTIPLY a, b (R93) completes for all registers 0..7, a = b included (90_conflicts.md C2): x[a] is the product of
the old values mod 256, nothing else changes. -/
def Obligations.MultiplyWritesTheProductModulo256 : Prop :=
  ∀ (s : State) (a b : Byte) (ha : a.toNat < 8) (hb : b.toNat < 8),
    exec (.multiply a b) s =
      .next { s with x := s.x.set a.toNat (BitVec.ofNat 8 (s.x[a.toNat].toNat * s.x[b.toNat].toNat % 256)) ha }

/-- PRINT_REGISTER r (R94) completes for every register 0..7: `out` gains x[r] at its end, nothing else changes. The
byte stream stands for the source's text lines by the spec's decision D12. -/
def Obligations.PrintRegisterAppendsTheRegister : Prop :=
  ∀ (s : State) (r : Byte) (h : r.toNat < 8), exec (.printRegister r) s = .next { s with out := s.out ++ [s.x[r.toNat]] }

/-- A register operand of 8 or more takes the RegisterIndexFault of that byte and has no other effect; MULTIPLY checks
its first operand first. It rests on the spec's decisions D6 (10_state.md R21: "This spec takes the fatal bounds
error") and D8 (60_exceptions.md R135). -/
def Obligations.RegisterIndexOfEightOrMoreFaults : Prop :=
  ∀ (s : State) (p q : Byte),
    let faulted (bad : Byte) : Host.Outcome State Fault Refusal :=
      .next { s with
        status := .faulted, cause := some .registerIndexFault,
        diag := s.diag ++ [⟨.registerIndexFault, s.pc, some s.ir, some bad.toNat⟩] }
    (8 ≤ p.toNat → exec (.loadImmediate p q) s = faulted p ∧ exec (.multiply p q) s = faulted p ∧
      exec (.printRegister p) s = faulted p) ∧
    (p.toNat < 8 → 8 ≤ q.toNat → exec (.multiply p q) s = faulted q)

/-- The frame of LOAD_IMMEDIATE and MULTIPLY (41_instructions.md R90, R95): no register but the destination, no flag, no
`pc`, `ir`, `out`, `started` and no byte of memory changes; with register operands below 8, not the run control either. -/
def Obligations.RegisterWritersFrame : Prop :=
  ∀ (s t : State) (i : Instr) (d o : Byte), i = .loadImmediate d o ∨ i = .multiply d o → exec i s = .next t →
    (∀ j : RegIdx, j.val ≠ d.toNat → getReg j t = getReg j s) ∧
    (∀ a, memRead a t = memRead a s) ∧
    t.fl = s.fl ∧ t.pc = s.pc ∧ t.ir = s.ir ∧ t.out = s.out ∧ t.started = s.started ∧
    (i.wellFormed = true → t.status = s.status ∧ t.cause = s.cause ∧ t.diag = s.diag)

/-- The frame of HALT and PRINT_REGISTER (R90, R95): no register, no flag, no `pc`, `ir`, `started` and no byte of memory
changes; HALT prints nothing and emits no diagnostic; PRINT_REGISTER of a register 0..7 leaves the run control alone. -/
def Obligations.HaltAndPrintRegisterFrame : Prop :=
  ∀ (s t : State) (i : Instr) (r : Byte), i = .halt ∨ i = .printRegister r → exec i s = .next t →
    (∀ j : RegIdx, getReg j t = getReg j s) ∧
    (∀ a, memRead a t = memRead a s) ∧
    t.fl = s.fl ∧ t.pc = s.pc ∧ t.ir = s.ir ∧ t.started = s.started ∧
    (i = .halt → t.out = s.out ∧ t.diag = s.diag) ∧
    (i ≠ .halt → i.wellFormed = true → t.status = s.status ∧ t.cause = s.cause ∧ t.diag = s.diag)

/-! ## The ALU -/

/-- R81: MUL overwrites the destination with the product mod 256, of the old values also where d = s; it changes no
flag and nothing else and has no exception; and it is what MULTIPLY, opcode 0xA2, invokes. -/
def Obligations.AluMultiplyWrapsModulo256 : Prop :=
  ∀ (s : State) (d src : RegIdx),
    alu .mul d src s = .ok { s with x := s.x.set d (BitVec.ofNat 8 (s.x[d].toNat * s.x[src].toNat % 256)) } ∧
    ∀ a b : Byte, a.toNat = d.val → b.toNat = src.val →
      (encode (.multiply a b)).head? = some 0xA2#8 ∧ exec (.multiply a b) s = finishHandler s (alu .mul d src s)

/-- ADD (40_alu.md R82) overwrites the destination with the sum mod 256 and records no carry. No opcode invokes it; it is
the ALU's own contract. -/
def Obligations.AluAddWrapsModulo256 : Prop :=
  ∀ (s : State) (d src : RegIdx),
    alu .add d src s = .ok { s with x := s.x.set d (BitVec.ofNat 8 ((s.x[d].toNat + s.x[src].toNat) % 256)) }

/-- A select outside {MUL, ADD} (40_alu.md R83) writes nothing and is fatal: a handler that passed it would stop the
machine in Faulted, not in Halted. It rests on the spec's decisions D7 and D22; how the select is numbered is the
model's own choice (log 6). -/
def Obligations.AluUnsupportedOperationIsFatal : Prop :=
  ∀ (s : State) (d src : RegIdx) (select : Nat),
    finishHandler s (alu (.unrecognised select) d src s) =
      .next { s with
        status := .faulted, cause := some .unsupportedOperation,
        diag := s.diag ++ [⟨.unsupportedOperation, s.pc, some s.ir, some select⟩] }

/-- R85: every result is the low 8 bits of the exact product or sum of the unsigned values, there is no other
operation, and multiplication is commutative in its operands' values. -/
def Obligations.AluArithmeticIsUnsignedModulo256 : Prop :=
  (∀ a b : Byte, ∃ r, aluResult .mul a b = .ok r ∧ r.toNat = a.toNat * b.toNat % 256) ∧
  (∀ a b : Byte, ∃ r, aluResult .add a b = .ok r ∧ r.toNat = (a.toNat + b.toNat) % 256) ∧
  (∀ (op : AluOp) (a b r : Byte), aluResult op a b = .ok r → op = .mul ∨ op = .add) ∧
  (∀ a b : Byte, aluResult .mul a b = aluResult .mul b a) ∧
  (∀ (s t : State) (d src j : RegIdx), alu .mul d src s = .ok t → j ≠ d → getReg j t = getReg j s)

/-! ## One step -/

/-- A step runs the decoded instruction (42_execution_loop.md R110): where the bytes at `pc` decode to `i`, well-formed
or not, the step sets `started`, records the opcode in `ir`, runs exec, and moves past the instruction's bytes unless
the handler raised. -/
def Obligations.StepRunsTheDecodedInstruction : Prop :=
  ∀ (s t : State) (bs rest : List Byte) (i : Instr), s.status = .running →
    (∀ k b, bs[k]? = some b → memRead (s.pc.toNat + k) s = .ok b) → decode bs = .ok (i, rest) →
    exec i { s with started := true, ir := i.opcode } = .next t →
    step s = .next (if t.status = .faulted then t
      else { t with pc := BitVec.ofNat 9 (t.pc.toNat + (encode i).length) })

/-- One step of HALT from memory (R91, R110, R114): at address 255 too, where `pc` becomes 256 and nothing faults. -/
def Obligations.HaltStep : Prop :=
  ∀ s : State, s.status = .running → memRead s.pc.toNat s = .ok 0x01#8 →
    step s = .next { s with
      started := true, ir := 0x01#8, status := .halted, cause := some .haltInstruction,
      pc := BitVec.ofNat 9 (s.pc.toNat + 1) }

/-- One step of LOAD_IMMEDIATE from memory (R92, R110, R114). -/
def Obligations.LoadImmediateStep : Prop :=
  ∀ (s : State) (r v : Byte) (h : r.toNat < 8), s.status = .running →
    memRead s.pc.toNat s = .ok 0x82#8 → memRead (s.pc.toNat + 1) s = .ok r → memRead (s.pc.toNat + 2) s = .ok v →
    step s = .next { s with
      started := true, ir := 0x82#8, x := s.x.set r.toNat v h, pc := BitVec.ofNat 9 (s.pc.toNat + 3) }

/-- One step of MULTIPLY from memory (R93, R110, R114). -/
def Obligations.MultiplyStep : Prop :=
  ∀ (s : State) (a b : Byte) (ha : a.toNat < 8) (hb : b.toNat < 8), s.status = .running →
    memRead s.pc.toNat s = .ok 0xA2#8 → memRead (s.pc.toNat + 1) s = .ok a → memRead (s.pc.toNat + 2) s = .ok b →
    step s = .next { s with
      started := true, ir := 0xA2#8, pc := BitVec.ofNat 9 (s.pc.toNat + 3),
      x := s.x.set a.toNat (BitVec.ofNat 8 (s.x[a.toNat].toNat * s.x[b.toNat].toNat % 256)) ha }

/-- One step of PRINT_REGISTER from memory (R94, R110, R114): it reads one operand byte only (90_conflicts.md C5), so it
runs at address 254. -/
def Obligations.PrintRegisterStep : Prop :=
  ∀ (s : State) (r : Byte) (h : r.toNat < 8), s.status = .running →
    memRead s.pc.toNat s = .ok 0x47#8 → memRead (s.pc.toNat + 1) s = .ok r →
    step s = .next { s with
      started := true, ir := 0x47#8, out := s.out ++ [s.x[r.toNat]], pc := BitVec.ofNat 9 (s.pc.toNat + 2) }

/-- An unknown opcode (30_encoding.md R66; 42_execution_loop.md R113) halts with one diagnostic, wherever it lies in
0..255: `ir` holds it, `pc` is not advanced, no operand byte is read. That `pc` stays is marked derived in R113; the
event's shape is decision D13. -/
def Obligations.UnknownOpcodeHaltsWithADiagnostic : Prop :=
  ∀ (s : State) (op : Byte), s.status = .running → memRead s.pc.toNat s = .ok op →
    op ≠ 0x01#8 → op ≠ 0x82#8 → op ≠ 0xA2#8 → op ≠ 0x47#8 →
    step s = .next { s with
      started := true, ir := op, status := .halted, cause := some .unknownOpcode,
      diag := s.diag ++ [⟨.unknownOpcode, s.pc, some op, none⟩] }

/-- A fetch at `pc` > 255 faults with that address, keeps `ir` and has no opcode in its event. It rests on the spec's
decisions D4 and D5 (42_execution_loop.md R111: "the fetch raises `MemoryBoundsFault(pc)` and `ir` keeps its old
value"). -/
def Obligations.FetchAboveMemoryFaults : Prop :=
  ∀ s : State, s.status = .running → 255 < s.pc.toNat →
    step s = .next { s with
      started := true, status := .faulted, cause := some .memoryBoundsFault,
      diag := s.diag ++ [⟨.memoryBoundsFault, s.pc, none, some s.pc.toNat⟩] }

/-- An instruction whose operand bytes run past 255 faults with address 256 and no other effect, whatever its register
bytes are: the operand reads come before the index checks. It rests on the spec's decisions D5 and D8
(60_exceptions.md R134, R135). -/
def Obligations.OperandAboveMemoryFaultsFirst : Prop :=
  ∀ (s : State) (op : Byte), s.status = .running → memRead s.pc.toNat s = .ok op →
    ((op = 0x82#8 ∨ op = 0xA2#8) ∧ (s.pc = 254#9 ∨ s.pc = 255#9)) ∨ (op = 0x47#8 ∧ s.pc = 255#9) →
    step s = .next { s with
      started := true, ir := op, status := .faulted, cause := some .memoryBoundsFault,
      diag := s.diag ++ [⟨.memoryBoundsFault, s.pc, some op, some 256⟩] }

/-- No step is enabled in Halted or Faulted (42_execution_loop.md R115, R116, decisions D7 and D23); the model answers a
named fault (its own choice, log 7). -/
def Obligations.StoppedMachineTakesNoStep : Prop :=
  ∀ s : State, (s.status = .halted → step s = .fault .stepWhileHalted) ∧
    (s.status = .faulted → step s = .fault .stepWhileFaulted)

/-- A running machine always has a step: no state with status Running is stuck or refused (42_execution_loop.md R110:
"A step is enabled exactly when `status = Running`"), and the step sets `started` (10_state.md R35). -/
def Obligations.RunningMachineAlwaysSteps : Prop :=
  ∀ s : State, (s.status = .running ↔ ∃ t, step s = .next t) ∧ (∀ t, step s = .next t → t.started = true)

/-- The program counter advance (42_execution_loop.md R114, R121): after HALT, and after every step that leaves the
machine Running, `pc` has grown by exactly `((ir >> 6) & 0b11) + 1`, not reduced mod 256, which is 1, 2 or 3; after every
other step it is as it was. -/
def Obligations.ProgramCounterAdvanceLaw : Prop :=
  ∀ s t : State, step s = .next t →
    (t.status = .running ∨ memRead s.pc.toNat s = .ok 0x01#8 →
      t.pc.toNat = s.pc.toNat + (((t.ir >>> 6) &&& 0b11#8).toNat + 1) ∧ t.pc.toNat ≤ s.pc.toNat + 3) ∧
    (¬ (t.status = .running ∨ memRead s.pc.toNat s = .ok 0x01#8) → t.pc = s.pc)

/-- Each fetch that succeeds writes `ir`, the opcode known or not; one that faults keeps it (10_state.md R27;
42_execution_loop.md R111, whose bounds fault is decision D5). -/
def Obligations.FetchRecordsTheOpcode : Prop :=
  ∀ s t : State, step s = .next t →
    (∀ op, memRead s.pc.toNat s = .ok op → t.ir = op) ∧ (255 < s.pc.toNat → t.ir = s.ir)

/-- No step, and so no run of any length, changes a byte of memory (20_memory.md R41, R53; 41_instructions.md R95). -/
def Obligations.MemoryIsConstantInARun : Prop :=
  ∀ (n : Nat) (s t : State), runLoop n s = .next t → ∀ a, memRead a t = memRead a s

/-- A step changes a register only if it is the one that a LOAD_IMMEDIATE or MULTIPLY at `pc` names as its destination
(10_state.md R20; 41_instructions.md R95). -/
def Obligations.OnlyTheDestinationRegisterChanges : Prop :=
  ∀ (s t : State) (j : RegIdx), step s = .next t → getReg j t ≠ getReg j s →
    (memRead s.pc.toNat s = .ok 0x82#8 ∨ memRead s.pc.toNat s = .ok 0xA2#8) ∧
    ∃ d, memRead (s.pc.toNat + 1) s = .ok d ∧ d.toNat = j.val

/-- The output stream never loses a byte, and only PRINT_REGISTER adds one, the value of the register it names
(10_state.md R31; 41_instructions.md R94). -/
def Obligations.OutputGrowsOnlyByPrintRegister : Prop :=
  ∀ s t : State, step s = .next t →
    t.out = s.out ∨
    (∃ r, ∃ h : r.toNat < 8, memRead s.pc.toNat s = .ok 0x47#8 ∧ memRead (s.pc.toNat + 1) s = .ok r ∧
      t.out = s.out ++ [s.x[r.toNat]])

/-- The flags register is inert (10_state.md R26; 40_alu.md R84): its value changes no step, and no step changes it. -/
def Obligations.FlagsRegisterIsInert : Prop :=
  ∀ (s : State) (f : Byte),
    (∀ t, step s = .next t → flags t = flags s ∧ step { s with fl := f } = .next { t with fl := f }) ∧
    (∀ e, step s = .fault e → step { s with fl := f } = .fault e)

/-- Every fault of a step is precise (60_exceptions.md R133) and is a MemoryBoundsFault or a RegisterIndexFault
(R134: no program reaches the others): registers, memory, flags, output and `pc` are as before the step, and exactly one
event is emitted, with the opcode if the fetch succeeded. It rests on the spec's decisions D5, D6 and D25. -/
def Obligations.StepFaultsArePrecise : Prop :=
  ∀ s t : State, step s = .next t → t.endedAbnormally →
    t.x = s.x ∧ (∀ a, memRead a t = memRead a s) ∧ t.fl = s.fl ∧ t.out = s.out ∧ t.pc = s.pc ∧ t.started = true ∧
    ∃ c op n, (c = .memoryBoundsFault ∨ c = .registerIndexFault) ∧ t.cause = some c ∧
      t.diag = s.diag ++ [⟨c, s.pc, op, some n⟩] ∧
      ((255 < s.pc.toNat ∧ op = none ∧ t.ir = s.ir) ∨ (memRead s.pc.toNat s = .ok t.ir ∧ op = some t.ir))

/-- A step leaves the machine Halted only at a HALT or at an unknown opcode, and the two leave different records (R91,
R113, R130, R131). -/
def Obligations.HaltedOnlyByHaltOrUnknownOpcode : Prop :=
  ∀ s t : State, step s = .next t → t.endedNormally →
    t.x = s.x ∧ t.out = s.out ∧ memRead s.pc.toNat s = .ok t.ir ∧
    ((t.ir = 0x01#8 ∧ t.cause = some .haltInstruction ∧ t.diag = s.diag ∧ t.pc.toNat = s.pc.toNat + 1) ∨
      (t.ir ≠ 0x01#8 ∧ t.ir ≠ 0x82#8 ∧ t.ir ≠ 0xA2#8 ∧ t.ir ≠ 0x47#8 ∧ t.cause = some .unknownOpcode ∧
        t.diag = s.diag ++ [⟨.unknownOpcode, s.pc, some t.ir, none⟩] ∧ t.pc = s.pc))

/-! ## Stopping and running -/

/-- R132: `halt(c)` sets status and cause and changes nothing else; of its two callers HALT emits no diagnostic and
advances, and an unknown opcode emits one and does not advance. -/
def Obligations.HaltOperationSetsStatusAndCause : Prop :=
  (∀ (c : StopCause) (s : State), c = .haltInstruction ∨ c = .unknownOpcode →
    haltWith c s = { s with status := .halted, cause := some c }) ∧
  (∀ s t : State, step s = .next t → memRead s.pc.toNat s = .ok 0x01#8 →
    t.status = .halted ∧ t.cause = some .haltInstruction ∧ t.diag = s.diag ∧ t.pc.toNat = s.pc.toNat + 1) ∧
  (∀ (s t : State) (op : Byte), step s = .next t → memRead s.pc.toNat s = .ok op → dispatch op = none →
    t.status = .halted ∧ t.cause = some .unknownOpcode ∧ t.pc = s.pc ∧
    ∃ e, e.cause = .unknownOpcode ∧ t.diag = s.diag ++ [e])

/-- R117: the loop tests the status before every fetch, starting with the first; while Running it goes on with one step;
the initial state is Running. -/
def Obligations.LoopTestsTheStatusBeforeEveryFetch : Prop :=
  (∀ (n : Nat) (s : State), s.status ≠ .running → runLoop n s = .next s) ∧
  (∀ (n : Nat) (s t : State), s.status = .running → step s = .next t → runLoop (n + 1) s = runLoop n t) ∧
  State.reset.status = .running

/-- Every run stops within 257 steps, from every state, not only from reset (42_execution_loop.md R122, marked derived
there). -/
def Obligations.EveryRunStopsWithin257Steps : Prop :=
  ∀ s : State, ∃ t, runLoop 257 s = .next t ∧ run s = .next t ∧ t.ended

/-- Every step keeps the invariant of the machine: canonical memory, `pc` ≤ 258 (10_state.md R24), the record of the stop
in agreement with the status (R30, R32, R91, R113, R133), a fresh machine at the entry point. -/
def Obligations.StepKeepsTheMachineConsistent : Prop :=
  ∀ s t : State, s.Consistent → step s = .next t → t.Consistent

/-- Every load keeps the invariant too (20_memory.md R44; 60_exceptions.md R133). -/
def Obligations.LoadKeepsTheMachineConsistent : Prop :=
  ∀ (img : List Byte) (s t : State), s.Consistent → load img s = .next t → t.Consistent

/-- The invariant holds at reset. -/
def Obligations.ResetIsConsistent : Prop := State.reset.Consistent

/-! ## Reset, memory and the load port -/

/-- What construction leaves (70_reset_and_hazards.md R150). R0 to R6, `fl` and `ir` are 0 by the spec's decisions D1,
D2 and D3 (log 1, log 2); R7, memory and the running status are the source's. -/
def Obligations.ResetValues : Prop :=
  (∀ a, a < 256 → memRead a State.reset = .ok 0#8) ∧
  (∀ j : RegIdx, j.val < 7 → getReg j State.reset = 0#8) ∧ getReg 7 State.reset = 0xF4#8 ∧
  State.reset.pc = 0#9 ∧ State.reset.fl = 0#8 ∧ State.reset.ir = 0#8 ∧ State.reset.status = .running ∧
  State.reset.cause = none ∧ State.reset.out = [] ∧ State.reset.diag = [] ∧ State.reset.started = false

/-- With nothing loaded the first step halts on the unknown opcode 0x00 at address 0 (R152, marked derived there). -/
def Obligations.EmptyMachineHaltsOnItsFirstStep : Prop :=
  step State.reset = .next { State.reset with
    started := true, status := .halted, cause := some .unknownOpcode,
    diag := [⟨.unknownOpcode, 0#9, some 0x00#8, none⟩] }

/-- A write changes one cell and nothing else, and is read back (20_memory.md R42, R43); outside 0..255 reading and
writing raise the bounds fault of that address and never wrap (decision D5; for writes the model's own reading, log
15). -/
def Obligations.MemoryReadsBackWhatWasWritten : Prop :=
  ∀ (a : Nat) (v : Byte) (s : State),
    (a ≤ 255 → ∃ t, memWrite a v s = .ok t ∧ memRead a t = .ok v ∧ (∀ b, b ≠ a → memRead b t = memRead b s) ∧
      t = { s with mem := t.mem }) ∧
    (255 < a → memWrite a v s = .error ⟨.memoryBoundsFault, a⟩ ∧ memRead a s = .error ⟨.memoryBoundsFault, a⟩)

/-- The model's canonical form of memory (its own choice, log 18) is faithful: memories that read alike at every address
are equal data. -/
def Obligations.CanonicalMemoriesThatReadAlikeAreEqual : Prop :=
  ∀ m n : Memory, m.wf → n.wf → (∀ a, a < 256 → m.read a = n.read a) → m = n

/-- A load before the first step of at most 256 bytes (20_memory.md R44): byte k of the image stands at address k, the
rest of memory and everything else is kept. The empty image and the full 256 bytes included. -/
def Obligations.LoadWritesTheImageFromAddressZero : Prop :=
  ∀ (img : List Byte) (s : State), s.started = false → img.length ≤ 256 →
    ∃ t, load img s = .next t ∧ t = { s with mem := t.mem } ∧
      (∀ a b, img[a]? = some b → memRead a t = .ok b) ∧ (∀ a, img.length ≤ a → memRead a t = memRead a s)

/-- A load after the first step is refused, and an image of more than 256 bytes is a LoadOverflow with no cell written
(20_memory.md R44, 60_exceptions.md R133: the spec's decision D10). -/
def Obligations.LoadRefusesLateImagesAndFaultsOnLongOnes : Prop :=
  ∀ (img : List Byte) (s : State),
    (s.started = true → load img s = .refused .loadAfterStart) ∧
    (s.started = false → 256 < img.length →
      load img s = .next { s with
        status := .faulted, cause := some .loadOverflow,
        diag := s.diag ++ [⟨.loadOverflow, s.pc, none, some img.length⟩] })

/-- No load is taken after a step: whatever a step answers, the load port then refuses (70_reset_and_hazards.md R152, the
spec's decision D10). -/
def Obligations.NoLoadAfterAStep : Prop :=
  ∀ (s t : State) (img : List Byte), step s = .next t → load img t = .refused .loadAfterStart

/-- The boot sequence (70_reset_and_hazards.md R152): any number of loads of at most 256 bytes each after construction
is accepted, and leaves the machine as constructed but for memory, Running and consistent, at the entry point. -/
def Obligations.BootLeavesTheMachineReadyToRun : Prop :=
  ∀ imgs : List (List Byte), (∀ img ∈ imgs, img.length ≤ 256) →
    ∃ t, bootWith imgs = .next t ∧ t = { State.reset with mem := t.mem } ∧ t.Consistent

/-! ## Notation around the machine -/

/-- The host's digits for a byte of `out` (10_state.md R31, decision D12): they denote the byte in decimal, and there is
no leading zero but in "0" itself. -/
def Obligations.RenderedDigitsDenoteTheByte : Prop :=
  ∀ v : Byte, digitsValue 10 (decimalDigits v) = some v.toNat ∧ (v ≠ 0#8 → (decimalDigits v).head? ≠ some '0') ∧
    (v = 0#8 → decimalDigits v = ['0'])

/-- The table of the assembler syntax, line by line (30_encoding.md R70, R71, the spec's decision D14): each instruction
line, with every register R0 to R7 and every immediate, has exactly the bytes of its row, in the row's order, and they
decode to the well-formed instruction of that row on the same operands, whatever bytes follow; the directive places its
bytes as written. -/
def Obligations.AssembledInstructionsDecodeBack : Prop :=
  let index (r : RegIdx) : Byte := BitVec.ofNat 8 r.val
  (∀ rest, asmBytes .halt = [0x01#8] ∧ Instr.wellFormed .halt = true ∧
    decode (asmBytes .halt ++ rest) = .ok (.halt, rest)) ∧
  (∀ (r : RegIdx) (v : Byte) rest, asmBytes (.loadImmediate r v) = [0x82#8, index r, v] ∧
    (Instr.loadImmediate (index r) v).wellFormed = true ∧
    decode (asmBytes (.loadImmediate r v) ++ rest) = .ok (.loadImmediate (index r) v, rest)) ∧
  (∀ (a b : RegIdx) rest, asmBytes (.multiply a b) = [0xA2#8, index a, index b] ∧
    (Instr.multiply (index a) (index b)).wellFormed = true ∧
    decode (asmBytes (.multiply a b) ++ rest) = .ok (.multiply (index a) (index b), rest)) ∧
  (∀ (r : RegIdx) rest, asmBytes (.printRegister r) = [0x47#8, index r] ∧
    (Instr.printRegister (index r)).wellFormed = true ∧
    decode (asmBytes (.printRegister r) ++ rest) = .ok (.printRegister (index r), rest)) ∧
  (∀ (b : Byte) (bs : List Byte), asmBytes (.bytes b bs) = b :: bs)
end

