-- ==== Sys2Proof/Laws/Decode.lean ====
section
/-! SUPPORT. The dispatch table and the operand reads, each characterised once. -/

namespace Sys2Proof

theorem dispatch_opcode (i : Instr) : dispatch i.opcode = some i.handler := by cases i <;> rfl

theorem dispatch_eq_none_iff (op : Byte) :
    dispatch op = none ↔ op ≠ 0x01#8 ∧ op ≠ 0x82#8 ∧ op ≠ 0xA2#8 ∧ op ≠ 0x47#8 := by
  revert op
  decide

/-- The opcode is determined by the handler: no two rows of the table share one. -/
theorem opcode_of_dispatch {op : Byte} {i : Instr} (h : dispatch op = some i.handler) : op = i.opcode := by
  have table : ∀ op : Byte, (dispatch op = some .halt → op = 0x01#8) ∧ (dispatch op = some .loadImmediate → op = 0x82#8) ∧
      (dispatch op = some .multiply → op = 0xA2#8) ∧ (dispatch op = some .printRegister → op = 0x47#8) := by decide
  obtain ⟨h1, h2, h3, h4⟩ := table op
  cases i
  · exact h1 h
  · exact h2 h
  · exact h3 h
  · exact h4 h

/-- The length fields of the four opcodes (30_encoding.md R65). -/
theorem operandCount_table : operandCount 0x01#8 = 0 ∧ operandCount 0x82#8 = 2 ∧ operandCount 0xA2#8 = 2 ∧
    operandCount 0x47#8 = 1 := by decide

/-- The length field agrees with the operands the handler reads (30_encoding.md R65). -/
theorem operandCount_opcode (i : Instr) : operandCount i.opcode = i.operands.length := by
  cases i
  · exact operandCount_table.1
  · exact operandCount_table.2.1
  · exact operandCount_table.2.2.1
  · exact operandCount_table.2.2.2

theorem instrLength_opcode (i : Instr) : instrLength i.opcode = (encode i).length := by
  rw [instrLength, operandCount_opcode]
  rfl

/-- Reading operands gives `i` exactly when every read gives the operand byte of `i`. -/
theorem readOperands_ok_iff {ε : Type} (read : Nat → Except ε Byte) (h : Handler) (i : Instr) :
    readOperands read h = .ok i ↔ i.handler = h ∧ ∀ k b, i.operands[k]? = some b → read (k + 1) = .ok b := by
  have two : ∀ (mk : Byte → Byte → Instr), ((do let r ← read 1; let v ← read 2; return mk r v) = Except.ok i) ↔
      ∃ r v, read 1 = .ok r ∧ read 2 = .ok v ∧ mk r v = i := by
    intro mk
    cases h1 : read 1 <;> cases h2 : read 2 <;> simp [bind, Except.bind, pure, Except.pure]
  cases h <;> cases i <;>
    simp only [readOperands, two, Instr.handler, Instr.operands, reduceCtorEq, false_and, and_false, exists_false,
      Instr.loadImmediate.injEq, Instr.multiply.injEq, true_and]
  case halt.halt => simp
  case printRegister.printRegister b =>
    cases h1 : read 1 <;> simp [bind, Except.bind, pure, Except.pure, List.getElem?_cons, h1]
  case loadImmediate.loadImmediate r v =>
    constructor
    · rintro ⟨a, b, h1, h2, rfl, rfl⟩ (_ | _ | k) c hc <;> simp_all
    · intro H
      exact ⟨r, v, H 0 r rfl, H 1 v rfl, rfl, rfl⟩
  case multiply.multiply r v =>
    constructor
    · rintro ⟨a, b, h1, h2, rfl, rfl⟩ (_ | _ | k) c hc <;> simp_all
    · intro H
      exact ⟨r, v, H 0 r rfl, H 1 v rfl, rfl, rfl⟩
  all_goals (cases h1 : read 1 <;> simp [bind, Except.bind, pure, Except.pure])

/-- A failing operand read is the first that fails, and lies among the operands that the opcode counts. -/
theorem readOperands_error {ε : Type} {read : Nat → Except ε Byte} {op : Byte} {h : Handler} {e : ε}
    (hop : dispatch op = some h) (he : readOperands read h = .error e) :
    ∃ k, 1 ≤ k ∧ k ≤ operandCount op ∧ read k = .error e ∧ ∀ j, 1 ≤ j → j < k → ∃ b, read j = .ok b := by
  have count : ∀ op : Byte, (dispatch op = some .loadImmediate ∨ dispatch op = some .multiply → operandCount op = 2) ∧
      (dispatch op = some .printRegister → operandCount op = 1) := by decide
  obtain ⟨c2, c1⟩ := count op
  have two : ∀ (mk : Byte → Byte → Instr), (do let r ← read 1; let v ← read 2; return mk r v) = Except.error e →
      operandCount op = 2 →
      ∃ k, 1 ≤ k ∧ k ≤ operandCount op ∧ read k = .error e ∧ ∀ j, 1 ≤ j → j < k → ∃ b, read j = .ok b := by
    intro mk hmk hc
    cases h1 : read 1 with
    | error e1 =>
      simp only [h1, bind, Except.bind, Except.error.injEq] at hmk
      exact ⟨1, by omega, by omega, by rw [h1, hmk], by omega⟩
    | ok r =>
      cases h2 : read 2 with
      | error e2 =>
        simp only [h1, h2, bind, Except.bind, Except.error.injEq] at hmk
        refine ⟨2, by omega, by omega, by rw [h2, hmk], fun j h3 h4 => ⟨r, ?_⟩⟩
        rw [show j = 1 by omega, h1]
      | ok v => simp [h1, h2, bind, Except.bind, pure, Except.pure] at hmk
  cases h with
  | halt => simp [readOperands] at he
  | loadImmediate => exact two _ he (c2 (.inl hop))
  | multiply => exact two _ he (c2 (.inr hop))
  | printRegister =>
    have hc := c1 hop
    cases h1 : read 1 with
    | error e1 =>
      simp only [readOperands, h1, bind, Except.bind, Except.error.injEq] at he
      exact ⟨1, by omega, by omega, by rw [h1, he], by omega⟩
    | ok r => simp [readOperands, h1, bind, Except.bind, pure, Except.pure] at he

end Sys2Proof
end

