-- ==== Sys2Proof/Laws/State.lean ====
section
/-! SUPPORT. What each named update of the state does to each field: one lemma per field per update, so that no later
proof unfolds an update. -/

namespace Sys2Proof.Machine

/-! ## beginStep -/

@[simp] theorem beginStep_mem (s : State) : (beginStep s).mem = s.mem := rfl
@[simp] theorem beginStep_x (s : State) : (beginStep s).x = s.x := rfl
@[simp] theorem beginStep_pc (s : State) : (beginStep s).pc = s.pc := rfl
@[simp] theorem beginStep_fl (s : State) : (beginStep s).fl = s.fl := rfl
@[simp] theorem beginStep_ir (s : State) : (beginStep s).ir = s.ir := rfl
@[simp] theorem beginStep_status (s : State) : (beginStep s).status = s.status := rfl
@[simp] theorem beginStep_cause (s : State) : (beginStep s).cause = s.cause := rfl
@[simp] theorem beginStep_out (s : State) : (beginStep s).out = s.out := rfl
@[simp] theorem beginStep_diag (s : State) : (beginStep s).diag = s.diag := rfl
@[simp] theorem beginStep_started (s : State) : (beginStep s).started = true := rfl

/-! ## setIr -/

@[simp] theorem setIr_mem (op : Byte) (s : State) : (setIr op s).mem = s.mem := rfl
@[simp] theorem setIr_x (op : Byte) (s : State) : (setIr op s).x = s.x := rfl
@[simp] theorem setIr_pc (op : Byte) (s : State) : (setIr op s).pc = s.pc := rfl
@[simp] theorem setIr_fl (op : Byte) (s : State) : (setIr op s).fl = s.fl := rfl
@[simp] theorem setIr_ir (op : Byte) (s : State) : (setIr op s).ir = op := rfl
@[simp] theorem setIr_status (op : Byte) (s : State) : (setIr op s).status = s.status := rfl
@[simp] theorem setIr_cause (op : Byte) (s : State) : (setIr op s).cause = s.cause := rfl
@[simp] theorem setIr_out (op : Byte) (s : State) : (setIr op s).out = s.out := rfl
@[simp] theorem setIr_diag (op : Byte) (s : State) : (setIr op s).diag = s.diag := rfl
@[simp] theorem setIr_started (op : Byte) (s : State) : (setIr op s).started = s.started := rfl

/-! ## setReg -/

@[simp] theorem setReg_mem (i : RegIdx) (v : Byte) (s : State) : (setReg i v s).mem = s.mem := rfl
@[simp] theorem setReg_x (i : RegIdx) (v : Byte) (s : State) : (setReg i v s).x = s.x.set i v := rfl
@[simp] theorem setReg_pc (i : RegIdx) (v : Byte) (s : State) : (setReg i v s).pc = s.pc := rfl
@[simp] theorem setReg_fl (i : RegIdx) (v : Byte) (s : State) : (setReg i v s).fl = s.fl := rfl
@[simp] theorem setReg_ir (i : RegIdx) (v : Byte) (s : State) : (setReg i v s).ir = s.ir := rfl
@[simp] theorem setReg_status (i : RegIdx) (v : Byte) (s : State) : (setReg i v s).status = s.status := rfl
@[simp] theorem setReg_cause (i : RegIdx) (v : Byte) (s : State) : (setReg i v s).cause = s.cause := rfl
@[simp] theorem setReg_out (i : RegIdx) (v : Byte) (s : State) : (setReg i v s).out = s.out := rfl
@[simp] theorem setReg_diag (i : RegIdx) (v : Byte) (s : State) : (setReg i v s).diag = s.diag := rfl
@[simp] theorem setReg_started (i : RegIdx) (v : Byte) (s : State) : (setReg i v s).started = s.started := rfl

/-! ## emitOut -/

@[simp] theorem emitOut_mem (v : Byte) (s : State) : (emitOut v s).mem = s.mem := rfl
@[simp] theorem emitOut_x (v : Byte) (s : State) : (emitOut v s).x = s.x := rfl
@[simp] theorem emitOut_pc (v : Byte) (s : State) : (emitOut v s).pc = s.pc := rfl
@[simp] theorem emitOut_fl (v : Byte) (s : State) : (emitOut v s).fl = s.fl := rfl
@[simp] theorem emitOut_ir (v : Byte) (s : State) : (emitOut v s).ir = s.ir := rfl
@[simp] theorem emitOut_status (v : Byte) (s : State) : (emitOut v s).status = s.status := rfl
@[simp] theorem emitOut_cause (v : Byte) (s : State) : (emitOut v s).cause = s.cause := rfl
@[simp] theorem emitOut_out (v : Byte) (s : State) : (emitOut v s).out = s.out ++ [v] := rfl
@[simp] theorem emitOut_diag (v : Byte) (s : State) : (emitOut v s).diag = s.diag := rfl
@[simp] theorem emitOut_started (v : Byte) (s : State) : (emitOut v s).started = s.started := rfl

/-! ## emitDiag -/

@[simp] theorem emitDiag_mem (c : StopCause) (p : PcWord) (op : Option Byte) (n : Option Nat) (s : State) : (emitDiag c p op n s).mem = s.mem := rfl
@[simp] theorem emitDiag_x (c : StopCause) (p : PcWord) (op : Option Byte) (n : Option Nat) (s : State) : (emitDiag c p op n s).x = s.x := rfl
@[simp] theorem emitDiag_pc (c : StopCause) (p : PcWord) (op : Option Byte) (n : Option Nat) (s : State) : (emitDiag c p op n s).pc = s.pc := rfl
@[simp] theorem emitDiag_fl (c : StopCause) (p : PcWord) (op : Option Byte) (n : Option Nat) (s : State) : (emitDiag c p op n s).fl = s.fl := rfl
@[simp] theorem emitDiag_ir (c : StopCause) (p : PcWord) (op : Option Byte) (n : Option Nat) (s : State) : (emitDiag c p op n s).ir = s.ir := rfl
@[simp] theorem emitDiag_status (c : StopCause) (p : PcWord) (op : Option Byte) (n : Option Nat) (s : State) : (emitDiag c p op n s).status = s.status := rfl
@[simp] theorem emitDiag_cause (c : StopCause) (p : PcWord) (op : Option Byte) (n : Option Nat) (s : State) : (emitDiag c p op n s).cause = s.cause := rfl
@[simp] theorem emitDiag_out (c : StopCause) (p : PcWord) (op : Option Byte) (n : Option Nat) (s : State) : (emitDiag c p op n s).out = s.out := rfl
@[simp] theorem emitDiag_diag (c : StopCause) (p : PcWord) (op : Option Byte) (n : Option Nat) (s : State) : (emitDiag c p op n s).diag = s.diag ++ [⟨c, p, op, n⟩] := rfl
@[simp] theorem emitDiag_started (c : StopCause) (p : PcWord) (op : Option Byte) (n : Option Nat) (s : State) : (emitDiag c p op n s).started = s.started := rfl

/-! ## haltWith -/

@[simp] theorem haltWith_mem (c : StopCause) (s : State) : (haltWith c s).mem = s.mem := rfl
@[simp] theorem haltWith_x (c : StopCause) (s : State) : (haltWith c s).x = s.x := rfl
@[simp] theorem haltWith_pc (c : StopCause) (s : State) : (haltWith c s).pc = s.pc := rfl
@[simp] theorem haltWith_fl (c : StopCause) (s : State) : (haltWith c s).fl = s.fl := rfl
@[simp] theorem haltWith_ir (c : StopCause) (s : State) : (haltWith c s).ir = s.ir := rfl
@[simp] theorem haltWith_status (c : StopCause) (s : State) : (haltWith c s).status = .halted := rfl
@[simp] theorem haltWith_cause (c : StopCause) (s : State) : (haltWith c s).cause = some c := rfl
@[simp] theorem haltWith_out (c : StopCause) (s : State) : (haltWith c s).out = s.out := rfl
@[simp] theorem haltWith_diag (c : StopCause) (s : State) : (haltWith c s).diag = s.diag := rfl
@[simp] theorem haltWith_started (c : StopCause) (s : State) : (haltWith c s).started = s.started := rfl

/-! ## raiseFault -/

@[simp] theorem raiseFault_mem (op : Option Byte) (r : Raise) (s : State) : (raiseFault op r s).mem = s.mem := rfl
@[simp] theorem raiseFault_x (op : Option Byte) (r : Raise) (s : State) : (raiseFault op r s).x = s.x := rfl
@[simp] theorem raiseFault_pc (op : Option Byte) (r : Raise) (s : State) : (raiseFault op r s).pc = s.pc := rfl
@[simp] theorem raiseFault_fl (op : Option Byte) (r : Raise) (s : State) : (raiseFault op r s).fl = s.fl := rfl
@[simp] theorem raiseFault_ir (op : Option Byte) (r : Raise) (s : State) : (raiseFault op r s).ir = s.ir := rfl
@[simp] theorem raiseFault_status (op : Option Byte) (r : Raise) (s : State) : (raiseFault op r s).status = .faulted := rfl
@[simp] theorem raiseFault_cause (op : Option Byte) (r : Raise) (s : State) : (raiseFault op r s).cause = some r.cause := rfl
@[simp] theorem raiseFault_out (op : Option Byte) (r : Raise) (s : State) : (raiseFault op r s).out = s.out := rfl
@[simp] theorem raiseFault_diag (op : Option Byte) (r : Raise) (s : State) : (raiseFault op r s).diag = s.diag ++ [⟨r.cause, s.pc, op, some r.info⟩] := rfl
@[simp] theorem raiseFault_started (op : Option Byte) (r : Raise) (s : State) : (raiseFault op r s).started = s.started := rfl

/-! ## unknownOpcodeHalt -/

@[simp] theorem unknownOpcodeHalt_mem (op : Byte) (s : State) : (unknownOpcodeHalt op s).mem = s.mem := rfl
@[simp] theorem unknownOpcodeHalt_x (op : Byte) (s : State) : (unknownOpcodeHalt op s).x = s.x := rfl
@[simp] theorem unknownOpcodeHalt_pc (op : Byte) (s : State) : (unknownOpcodeHalt op s).pc = s.pc := rfl
@[simp] theorem unknownOpcodeHalt_fl (op : Byte) (s : State) : (unknownOpcodeHalt op s).fl = s.fl := rfl
@[simp] theorem unknownOpcodeHalt_ir (op : Byte) (s : State) : (unknownOpcodeHalt op s).ir = s.ir := rfl
@[simp] theorem unknownOpcodeHalt_status (op : Byte) (s : State) : (unknownOpcodeHalt op s).status = .halted := rfl
@[simp] theorem unknownOpcodeHalt_cause (op : Byte) (s : State) : (unknownOpcodeHalt op s).cause = some .unknownOpcode := rfl
@[simp] theorem unknownOpcodeHalt_out (op : Byte) (s : State) : (unknownOpcodeHalt op s).out = s.out := rfl
@[simp] theorem unknownOpcodeHalt_diag (op : Byte) (s : State) : (unknownOpcodeHalt op s).diag = s.diag ++ [⟨.unknownOpcode, s.pc, some op, none⟩] := rfl
@[simp] theorem unknownOpcodeHalt_started (op : Byte) (s : State) : (unknownOpcodeHalt op s).started = s.started := rfl

/-! ## advancePc -/

@[simp] theorem advancePc_mem (s : State) : (advancePc s).mem = s.mem := rfl
@[simp] theorem advancePc_x (s : State) : (advancePc s).x = s.x := rfl
@[simp] theorem advancePc_pc (s : State) : (advancePc s).pc = BitVec.ofNat 9 (s.pc.toNat + instrLength s.ir) := rfl
@[simp] theorem advancePc_fl (s : State) : (advancePc s).fl = s.fl := rfl
@[simp] theorem advancePc_ir (s : State) : (advancePc s).ir = s.ir := rfl
@[simp] theorem advancePc_status (s : State) : (advancePc s).status = s.status := rfl
@[simp] theorem advancePc_cause (s : State) : (advancePc s).cause = s.cause := rfl
@[simp] theorem advancePc_out (s : State) : (advancePc s).out = s.out := rfl
@[simp] theorem advancePc_diag (s : State) : (advancePc s).diag = s.diag := rfl
@[simp] theorem advancePc_started (s : State) : (advancePc s).started = s.started := rfl

end Sys2Proof.Machine
end

