-- ==== Sys2Proof/Laws/Exec.lean ====
section
/-! SUPPORT. The register index check, the ALU, and everything an instruction's meaning can do, said once. -/

namespace Sys2Proof.Machine

theorem getReg_setReg (i j : RegIdx) (v : Byte) (s : State) :
    getReg j (setReg i v s) = if j = i then v else getReg j s := by
  by_cases h : j = i
  · simp [getReg, Vector.get_eq_getElem, h]
  · have : ¬ (i : Nat) = j := fun e => h (Fin.ext e.symm)
    simp [getReg, Vector.get_eq_getElem, h, this]

theorem regIndex_ok {b : Byte} (h : b.toNat < 8) : regIndex b = .ok ⟨b.toNat, h⟩ := dif_pos h

theorem regIndex_error {b : Byte} (h : 8 ≤ b.toNat) : regIndex b = .error ⟨.registerIndexFault, b.toNat⟩ :=
  dif_neg (by omega)

/-- Everything the register index check can do. -/
theorem regIndex_cases (b : Byte) :
    (∃ h : b.toNat < 8, regIndex b = .ok ⟨b.toNat, h⟩) ∨
      (8 ≤ b.toNat ∧ regIndex b = .error ⟨.registerIndexFault, b.toNat⟩) := by
  rcases Nat.lt_or_ge b.toNat 8 with h | h
  · exact .inl ⟨h, regIndex_ok h⟩
  · exact .inr ⟨h, regIndex_error h⟩

/-- The ALU changes its destination register and nothing else, or raises. -/
theorem alu_cases (op : AluOp) (d src : RegIdx) (s : State) :
    (∃ v, aluResult op (getReg d s) (getReg src s) = .ok v ∧ alu op d src s = .ok (setReg d v s)) ∨
      (∃ n, op = .unrecognised n ∧ alu op d src s = .error ⟨.unsupportedOperation, n⟩) := by
  cases op with
  | mul => exact .inl ⟨_, rfl, rfl⟩
  | add => exact .inl ⟨_, rfl, rfl⟩
  | unrecognised n => exact .inr ⟨n, rfl, rfl⟩

/-- A handler goes on with the register its operand names. -/
theorem finishHandler_register_ok {b : Byte} (h : b.toNat < 8) (s : State) (k : RegIdx → Except Raise State) :
    finishHandler s (registerOperand b >>= k) = finishHandler s (k ⟨b.toNat, h⟩) := by
  rw [registerOperand, regIndex_ok h]
  rfl

/-- A handler whose register operand is 8 or more takes the fault in the state it began in. -/
theorem finishHandler_register_error {b : Byte} (h : 8 ≤ b.toNat) (s : State) (k : RegIdx → Except Raise State) :
    finishHandler s (registerOperand b >>= k) = .next (raiseFault (some s.ir) ⟨.registerIndexFault, b.toNat⟩ s) := by
  rw [registerOperand, regIndex_error h]
  rfl

/-- Everything an instruction's meaning can do: its effect, or the fault of a register operand of 8 or more. -/
theorem exec_cases (i : Instr) (s : State) :
    (i = .halt ∧ exec i s = .next (haltWith .haltInstruction s)) ∨
    (∃ rb v, ∃ h : rb.toNat < 8, i = .loadImmediate rb v ∧ exec i s = .next (setReg ⟨rb.toNat, h⟩ v s)) ∨
    (∃ ab bb v, ∃ h : ab.toNat < 8, bb.toNat < 8 ∧ i = .multiply ab bb ∧ exec i s = .next (setReg ⟨ab.toNat, h⟩ v s)) ∨
    (∃ rb, ∃ h : rb.toNat < 8, i = .printRegister rb ∧ exec i s = .next (emitOut (getReg ⟨rb.toNat, h⟩ s) s)) ∨
    (∃ b ∈ i.operands, 8 ≤ b.toNat ∧ i.wellFormed = false ∧
      exec i s = .next (raiseFault (some s.ir) ⟨.registerIndexFault, b.toNat⟩ s)) := by
  cases i with
  | halt => exact .inl ⟨rfl, rfl⟩
  | loadImmediate rb v =>
    rcases Nat.lt_or_ge rb.toNat 8 with h | h
    · exact .inr (.inl ⟨rb, v, h, rfl, finishHandler_register_ok h _ _⟩)
    · exact .inr (.inr (.inr (.inr ⟨rb, by simp [Instr.operands], h, by simp [Instr.wellFormed, isRegisterIndex, h], finishHandler_register_error h _ _⟩)))
  | multiply ab bb =>
    rcases Nat.lt_or_ge ab.toNat 8 with ha | ha
    · rcases Nat.lt_or_ge bb.toNat 8 with hb | hb
      · exact .inr (.inr (.inl ⟨ab, bb, _, ha, hb, rfl,
          (finishHandler_register_ok ha _ _).trans (finishHandler_register_ok hb _ _)⟩))
      · exact .inr (.inr (.inr (.inr ⟨bb, by simp [Instr.operands], hb, by simp [Instr.wellFormed, isRegisterIndex, hb],
          (finishHandler_register_ok ha _ _).trans (finishHandler_register_error hb _ _)⟩)))
    · exact .inr (.inr (.inr (.inr ⟨ab, by simp [Instr.operands], ha, by simp [Instr.wellFormed, isRegisterIndex, ha],
        finishHandler_register_error ha _ _⟩)))
  | printRegister rb =>
    rcases Nat.lt_or_ge rb.toNat 8 with h | h
    · exact .inr (.inr (.inr (.inl ⟨rb, h, rfl, finishHandler_register_ok h _ _⟩)))
    · exact .inr (.inr (.inr (.inr ⟨rb, by simp [Instr.operands], h, by simp [Instr.wellFormed, isRegisterIndex, h], finishHandler_register_error h _ _⟩)))

end Sys2Proof.Machine
end

