-- ==== Sys2Proof/Laws/Memory.lean ====
section
/-! SUPPORT. Memory as a list of cells: reading after writing, the canonical form, and what the memory operations of the
machine answer. -/

namespace Sys2Proof.Machine

theorem Memory.read_append_of_absent {m : Memory} {a : Nat} (h : ∀ c ∈ m, c.1 ≠ a) (n : Memory) :
    Memory.read (m ++ n) a = Memory.read n a := by
  induction m with
  | nil => rfl
  | cons c m ih =>
    simp only [List.mem_cons, forall_eq_or_imp] at h
    simp [Memory.read, h.1, ih h.2]

theorem Memory.read_filter {p : Host.Cell → Bool} {a : Nat} (hp : ∀ c : Host.Cell, c.1 = a → p c = true) (m n : Memory)
    (hn : Memory.read n a = Memory.unlisted) : Memory.read (m.filter p ++ n) a = Memory.read m a := by
  induction m with
  | nil => simpa [Memory.read] using hn
  | cons c m ih =>
    by_cases hc : c.1 = a
    · simp [Memory.read, hp c hc, hc]
    · by_cases hpc : p c = true <;> simp [Memory.read, hpc, hc, ih]

/-- Reading after a write: the byte written at that address, the old byte anywhere else. -/
theorem Memory.read_write (m : Memory) (a b : Nat) (v : Byte) :
    (m.write a v).read b = if b = a then v else m.read b := by
  have rest : ∀ c, a < c → Memory.read (m.filter (fun k => a < k.1)) c = Memory.read m c := by
    intro c hc
    simpa using Memory.read_filter (m := m) (n := []) (p := fun k => a < k.1) (by simp; omega) rfl
  have above : ∀ c, c ≤ a → Memory.read (m.filter (fun k => a < k.1)) c = Memory.unlisted := by
    intro c hc
    have := Memory.read_append_of_absent (m := m.filter (fun k => a < k.1)) (a := c)
      (by intro k hk; simp at hk; omega) []
    simpa [Memory.read] using this
  have cell : ∀ c, c ≠ a → Memory.read ((if v = Memory.unlisted then [] else [(a, v)]) ++ m.filter (fun k => a < k.1)) c =
      Memory.read (m.filter (fun k => a < k.1)) c := by
    intro c hc
    split <;> simp [Memory.read, Ne.symm hc]
  unfold Memory.write
  rw [List.append_assoc]
  rcases lt_trichotomy b a with h | h | h
  · rw [if_neg h.ne, Memory.read_filter (by simp; omega)]
    rw [cell b h.ne, above b h.le]
  · rw [if_pos h, Memory.read_append_of_absent (by intro k hk; simp at hk; omega)]
    subst h
    by_cases hv : v = Memory.unlisted
    · simp [hv, above b (le_refl b)]
    · simp [hv, Memory.read]
  · rw [if_neg h.ne', Memory.read_append_of_absent (by intro k hk; simp at hk; omega)]
    rw [cell b h.ne', rest b h]

theorem Memory.write_mem {m : Memory} {a : Nat} {v : Byte} {c : Host.Cell} (h : c ∈ m.write a v) :
    (c ∈ m ∧ c.1 ≠ a) ∨ (c = (a, v) ∧ v ≠ Memory.unlisted) := by
  simp only [Memory.write, List.mem_append, List.mem_filter, decide_eq_true_eq] at h
  rcases h with (⟨hm, hlt⟩ | hc) | ⟨hm, hlt⟩
  · exact .inl ⟨hm, by omega⟩
  · split at hc
    · simp at hc
    · next hv => exact .inr ⟨by simpa using hc, hv⟩
  · exact .inl ⟨hm, by omega⟩

/-- A write inside 0..255 keeps the canonical form. -/
theorem Memory.write_wf {m : Memory} {a : Nat} {v : Byte} (hm : m.wf) (ha : a < Config.memSize) : (m.write a v).wf := by
  refine ⟨?_, ?_⟩
  · unfold Memory.write
    rw [List.append_assoc, List.pairwise_append]
    refine ⟨hm.1.filter _, ?_, ?_⟩
    · rw [List.pairwise_append]
      refine ⟨by split <;> simp, hm.1.filter _, ?_⟩
      intro c hc d hd
      simp only [List.mem_filter, decide_eq_true_eq] at hd
      split at hc <;> simp_all
    · intro c hc d hd
      simp only [List.mem_filter, decide_eq_true_eq, List.mem_append] at hc hd
      rcases hd with hd | hd
      · split at hd <;> simp_all
      · omega
  · intro c hc
    rcases Memory.write_mem hc with ⟨h, -⟩ | ⟨rfl, hv⟩
    · exact hm.2 c h
    · exact ⟨ha, hv⟩

/-! ## The machine's memory operations -/

theorem memRead_ok {a : Nat} {s : State} (h : a < 256) : memRead a s = .ok (s.mem.read a) := if_pos h

theorem memRead_error {a : Nat} {s : State} (h : 256 ≤ a) : memRead a s = .error ⟨.memoryBoundsFault, a⟩ :=
  if_neg (by simpa [Config.memSize] using h)

/-- Everything MemRead can do. -/
theorem memRead_cases (a : Nat) (s : State) :
    (a < 256 ∧ memRead a s = .ok (s.mem.read a)) ∨ (256 ≤ a ∧ memRead a s = .error ⟨.memoryBoundsFault, a⟩) := by
  rcases Nat.lt_or_ge a 256 with h | h
  · exact .inl ⟨h, memRead_ok h⟩
  · exact .inr ⟨h, memRead_error h⟩

/-- MemRead depends on memory alone. -/
theorem memRead_congr {s t : State} (h : t.mem = s.mem) (a : Nat) : memRead a t = memRead a s := by
  simp [memRead, h]

theorem memWrite_ok {a : Nat} (v : Byte) (s : State) (h : a < 256) :
    memWrite a v s = .ok { s with mem := s.mem.write a v } := if_pos h

/-- A written image: every byte from `a` on has a cell, so all of them land, and nothing but memory changes. -/
theorem memWriteAll_ok (bs : List Byte) (a : Nat) (s : State) (h : a + bs.length ≤ 256) :
    ∃ m : Memory, memWriteAll a bs s = .ok { s with mem := m } ∧
      (∀ b, m.read b = if a ≤ b then bs[b - a]?.getD (s.mem.read b) else s.mem.read b) ∧ (s.mem.wf → m.wf) := by
  induction bs generalizing a s with
  | nil => exact ⟨s.mem, rfl, by simp, id⟩
  | cons v vs ih =>
    simp only [List.length_cons] at h
    obtain ⟨m, hm, hread, hwf⟩ := ih (a + 1) { s with mem := s.mem.write a v } (by omega)
    refine ⟨m, ?_, ?_, fun hs => hwf (Memory.write_wf hs (by simp [Config.memSize]; omega))⟩
    · rw [memWriteAll, memWrite_ok v s (by omega)]
      exact hm
    · intro b
      rw [hread b, Memory.read_write]
      rcases lt_trichotomy a b with hb | hb | hb
      · obtain ⟨k, rfl⟩ : ∃ k, b = a + 1 + k := ⟨b - (a + 1), by omega⟩
        have past : ¬ a + 1 + k = a := by omega
        have offset : a + 1 + k - a = k + 1 := by omega
        simp [past, offset, hb.le]
      · subst hb
        simp
      · have below : ¬ a + 1 ≤ b ∧ ¬ b = a ∧ ¬ a ≤ b := by omega
        simp [below]

end Sys2Proof.Machine
end

