-- ==== Sys2Proof/Laws/PerInstr.lean ====
section
/-! SUPPORT. Statements made per instruction, about the instruction as syntax: one lemma per constructor. -/

namespace Sys2Proof.Laws.Encoding

/-- The length field of the encoding's first byte counts the operand bytes that follow it (spec/30_encoding.md R60,
R65), and the first byte is in the dispatch table under the instruction's own handler (R64). -/
def Statement (i : Instr) : Prop :=
  (encode i).length = operandCount i.opcode + 1 ∧ (encode i)[0]? = some i.opcode ∧ dispatch i.opcode = some i.handler

theorem halt : Statement .halt :=
  ⟨instrLength_opcode _ ▸ rfl, rfl, dispatch_opcode _⟩

theorem loadImmediate (r v : Byte) : Statement (.loadImmediate r v) :=
  ⟨instrLength_opcode _ ▸ rfl, rfl, dispatch_opcode _⟩

theorem multiply (a b : Byte) : Statement (.multiply a b) :=
  ⟨instrLength_opcode _ ▸ rfl, rfl, dispatch_opcode _⟩

theorem printRegister (r : Byte) : Statement (.printRegister r) :=
  ⟨instrLength_opcode _ ▸ rfl, rfl, dispatch_opcode _⟩

end Sys2Proof.Laws.Encoding
end

