-- ==== Sys2Proof/Laws/Step.lean ====
section
/-! SUPPORT. Everything one step can do, said once: the invariants and the frames of a step are case analyses of
`step_cases`. -/

namespace Sys2Proof.Machine

theorem stepDisabled_running {s : State} (h : s.status = .running) : stepDisabled s = none := by
  simp [stepDisabled, h]

/-- The state in which the handler of the instruction at `pc` starts. -/
abbrev handlerStart (s : State) : State := setIr (s.mem.read s.pc.toNat) (beginStep s)

/-- Everything the fetch can do, in the order of spec/60_exceptions.md R135. -/
theorem fetchInstr_cases (s : State) :
    (256 ≤ s.pc.toNat ∧ fetchInstr s = .error (raiseFault none ⟨.memoryBoundsFault, s.pc.toNat⟩ s)) ∨
    (s.pc.toNat < 256 ∧ dispatch (s.mem.read s.pc.toNat) = none ∧
      fetchInstr s = .error (unknownOpcodeHalt (s.mem.read s.pc.toNat) (setIr (s.mem.read s.pc.toNat) s))) ∨
    (∃ h k, dispatch (s.mem.read s.pc.toNat) = some h ∧ 1 ≤ k ∧ k ≤ operandCount (s.mem.read s.pc.toNat) ∧
      s.pc.toNat + k = 256 ∧
      fetchInstr s = .error (raiseFault (some (s.mem.read s.pc.toNat)) ⟨.memoryBoundsFault, 256⟩
        (setIr (s.mem.read s.pc.toNat) s))) ∨
    (∃ i : Instr, s.pc.toNat + i.operands.length < 256 ∧ s.mem.read s.pc.toNat = i.opcode ∧
      (∀ k b, i.operands[k]? = some b → s.mem.read (s.pc.toNat + (k + 1)) = b) ∧
      fetchInstr s = .ok (i, setIr (s.mem.read s.pc.toNat) s)) := by
  rcases memRead_cases s.pc.toNat s with ⟨hp, hr⟩ | ⟨hp, hr⟩
  swap
  · exact .inl ⟨hp, by simp [fetchInstr, hr]⟩
  right
  cases hd : dispatch (s.mem.read s.pc.toNat) with
  | none => exact .inl ⟨hp, rfl, by simp [fetchInstr, hr, hd]⟩
  | some h =>
    right
    cases ho : readOperands (operandByte (setIr (s.mem.read s.pc.toNat) s)) h with
    | error r =>
      obtain ⟨k, h1, hk, hrk, hbefore⟩ := readOperands_error hd ho
      left
      have bound : 256 ≤ s.pc.toNat + k ∧ r = ⟨.memoryBoundsFault, s.pc.toNat + k⟩ := by
        rcases memRead_cases (s.pc.toNat + k) (setIr (s.mem.read s.pc.toNat) s) with ⟨_, e⟩ | ⟨hge, e⟩
        · rw [operandByte, setIr_pc, e] at hrk
          simp at hrk
        · rw [operandByte, setIr_pc, e] at hrk
          exact ⟨hge, by simpa using hrk.symm⟩
      have first : s.pc.toNat + k = 256 := by
        by_contra hne
        have hlast : 1 ≤ k - 1 ∧ k - 1 < k := by omega
        obtain ⟨b, hb⟩ := hbefore (k - 1) hlast.1 hlast.2
        rw [operandByte, setIr_pc, memRead_error (by omega)] at hb
        simp at hb
      refine ⟨h, k, rfl, h1, hk, first, ?_⟩
      simp only [fetchInstr, hr, hd, ho, bound.2, first]
    | ok i =>
      right
      obtain ⟨rfl, hops⟩ := (readOperands_ok_iff _ _ _).mp ho
      have inside : ∀ k b, i.operands[k]? = some b →
          s.pc.toNat + (k + 1) < 256 ∧ s.mem.read (s.pc.toNat + (k + 1)) = b := by
        intro k b hb
        have := hops k b hb
        rcases memRead_cases (s.pc.toNat + (k + 1)) (setIr (s.mem.read s.pc.toNat) s) with ⟨hlt, e⟩ | ⟨_, e⟩
        · rw [operandByte, setIr_pc, e] at this
          exact ⟨hlt, by simpa using this⟩
        · rw [operandByte, setIr_pc, e] at this
          simp at this
      refine ⟨i, ?_, opcode_of_dispatch hd, fun k b hb => (inside k b hb).2, ?_⟩
      · rcases Nat.eq_zero_or_pos i.operands.length with h0 | hpos
        · omega
        · have := (inside (i.operands.length - 1) _ (List.getElem?_eq_getElem (by omega))).1
          omega
      · simp only [fetchInstr, hr, hd, ho]

/-- Everything a step can do from Running. -/
theorem step_cases {s : State} (hs : s.status = .running) :
    (256 ≤ s.pc.toNat ∧ step s = .next (raiseFault none ⟨.memoryBoundsFault, s.pc.toNat⟩ (beginStep s))) ∨
    (s.pc.toNat < 256 ∧ dispatch (s.mem.read s.pc.toNat) = none ∧
      step s = .next (unknownOpcodeHalt (s.mem.read s.pc.toNat) (handlerStart s))) ∨
    (∃ h k, dispatch (s.mem.read s.pc.toNat) = some h ∧ 1 ≤ k ∧ k ≤ operandCount (s.mem.read s.pc.toNat) ∧
      s.pc.toNat + k = 256 ∧
      step s = .next (raiseFault (some (s.mem.read s.pc.toNat)) ⟨.memoryBoundsFault, 256⟩ (handlerStart s))) ∨
    (∃ i u, s.pc.toNat + i.operands.length < 256 ∧ s.mem.read s.pc.toNat = i.opcode ∧
      (∀ k b, i.operands[k]? = some b → s.mem.read (s.pc.toNat + (k + 1)) = b) ∧
      exec i (handlerStart s) = .next u ∧ step s = .next (afterHandler u)) := by
  have enabled := stepDisabled_running hs
  rcases fetchInstr_cases (beginStep s) with ⟨h, e⟩ | ⟨h, hd, e⟩ | ⟨h, k, hd, h1, hk, hp, e⟩ | ⟨i, hp, hop, hops, e⟩
  · exact .inl ⟨h, by simp only [step, enabled, e]; rfl⟩
  · exact .inr (.inl ⟨h, hd, by simp only [step, enabled, e]; rfl⟩)
  · exact .inr (.inr (.inl ⟨h, k, hd, h1, hk, hp, by simp only [step, enabled, e]; rfl⟩))
  · have total : ∃ u, exec i (handlerStart s) = .next u := by
      rcases exec_cases i (handlerStart s) with ⟨_, h⟩ | ⟨_, _, _, _, h⟩ | ⟨_, _, _, _, _, _, h⟩ | ⟨_, _, _, h⟩ | ⟨_, _, _, _, h⟩ <;>
        exact ⟨_, h⟩
    obtain ⟨u, hu⟩ := total
    refine .inr (.inr (.inr ⟨i, u, hp, hop, hops, hu, ?_⟩))
    simp only [step, enabled, e]
    rw [show setIr ((beginStep s).mem.read (beginStep s).pc.toNat) (beginStep s) = handlerStart s from rfl, hu]

end Sys2Proof.Machine
end

