-- ==== Sys2Proof/Tests/Slice0.lean ====
section
/-! SUPPORT. The model's own tests: checks of WellFormed, decoding of words written out from the spec, one-step vectors
of spec/95_test_vectors.md, and for each statement with hypotheses a concrete witness that meets them. -/

namespace Sys2Proof.Tests

open Sys2Proof.Machine

/-! ## Helpers -/

/-- The state after construction with `bytes` standing at `pc` and after. -/
def placed (pc : Nat) (bytes : List Byte) : State :=
  match memWriteAll pc bytes { State.reset with pc := BitVec.ofNat 9 pc } with
  | .ok t => t
  | .error _ => State.reset

/-- The next state of an outcome. -/
def nextOf : Host.Outcome State Fault Refusal → Option State
  | .next t => some t
  | .fault _ => none
  | .refused _ => none

/-- What a vector of 95_test_vectors.md gives of a next state. -/
structure Shown where
  pc : PcWord
  ir : Byte
  status : Status
  cause : Option StopCause
  out : List Byte
  diag : List DiagEvent
  deriving DecidableEq, Repr

/-- What a step shows. -/
def shown (o : Host.Outcome State Fault Refusal) : Option Shown :=
  (nextOf o).map fun t => ⟨t.pc, t.ir, t.status, t.cause, t.out, t.diag⟩

/-- Register j after a step. -/
def registerAfter (o : Host.Outcome State Fault Refusal) (j : RegIdx) : Option Byte := (nextOf o).map (getReg j)

/-! ## WellFormed: one ill-formed term for each check -/

theorem test_wellFormed_refuses_loadImmediate_register : (Instr.loadImmediate 8 0).wellFormed = false := by decide
theorem test_wellFormed_refuses_multiply_destination : (Instr.multiply 8 0).wellFormed = false := by decide
theorem test_wellFormed_refuses_multiply_source : (Instr.multiply 7 8).wellFormed = false := by decide
theorem test_wellFormed_refuses_printRegister_register : (Instr.printRegister 255).wellFormed = false := by decide
theorem test_wellFormed_takes_boundary : (Instr.multiply 7 7).wellFormed = true ∧ (Instr.loadImmediate 7 255).wellFormed = true ∧
    (Instr.printRegister 7).wellFormed = true ∧ Instr.halt.wellFormed = true := by decide

/-! ## Decoding: words written out from 30_encoding.md R62 and R64 -/

theorem test_decode_halt : decode [0b00000001#8] = .ok (.halt, []) := by decide
theorem test_decode_loadImmediate : decode [0b10000010#8, 0b00000011#8, 0b11001000#8] = .ok (.loadImmediate 3 200, []) := by decide
theorem test_decode_multiply : decode [0b10100010#8, 0b00000101#8, 0b00000110#8] = .ok (.multiply 5 6, []) := by decide
theorem test_decode_printRegister : decode [0b01000111#8, 0b00000111#8, 0b00000001#8] = .ok (.printRegister 7, [0b00000001#8]) := by decide
theorem test_decode_rejects : decode [] = .error .noBytes ∧ decode [0x82#8, 0x00#8] = .error (.missingOperand 2) ∧
    decode [0x47#8] = .error (.missingOperand 1) ∧ decode [0xC0#8, 0#8, 0#8, 0#8] = .error (.unknownOpcode 0xC0) := by decide
theorem test_decodeTableWord : decodeTableWord 8 0x01 = some .halt ∧ decodeTableWord 24 0xC80382 = some (.loadImmediate 3 200) ∧
    decodeTableWord 24 0x0605A2 = some (.multiply 5 6) ∧ decodeTableWord 16 0x0747 = some (.printRegister 7) ∧
    decodeTableWord 8 0x82 = some (.loadImmediate 0 0) ∧ decodeTableWord 8 0xA0 = none := by decide
theorem test_withFetchWord_runs_it : registerAfter (step (State.reset.withFetchWord 24 0xC80382)) 3 = some 200#8 := by decide

/-! ## One step of each instruction: 95_test_vectors.md, sections 2.1 to 2.6 -/

theorem test_halt_at_255 : shown (step (placed 255 [0x01])) = some ⟨256#9, 0x01#8, .halted, some .haltInstruction, [], []⟩ := by decide
theorem test_loadImmediate_r7 : registerAfter (step (placed 0 [0x82, 0x07, 0xFF])) 7 = some 255#8 := by decide
theorem test_loadImmediate_bad_index_at_254 : shown (step (placed 254 [0x82, 0x09])) =
    some ⟨254#9, 0x82#8, .faulted, some .memoryBoundsFault, [], [⟨.memoryBoundsFault, 254#9, some 0x82#8, some 256⟩]⟩ := by decide
theorem test_multiply_square_of_r7 : registerAfter (step (placed 0 [0xA2, 0x07, 0x07])) 7 = some 144#8 := by decide
theorem test_multiply_checks_operand1_first : shown (step (placed 0 [0xA2, 0x09, 0x08])) =
    some ⟨0#9, 0xA2#8, .faulted, some .registerIndexFault, [], [⟨.registerIndexFault, 0#9, some 0xA2#8, some 9⟩]⟩ := by decide
theorem test_printRegister_at_254 : shown (step (placed 254 [0x47, 0x07])) = some ⟨256#9, 0x47#8, .running, none, [244#8], []⟩ := by decide
theorem test_printRegister_at_255 : shown (step (placed 255 [0x47])) =
    some ⟨255#9, 0x47#8, .faulted, some .memoryBoundsFault, [], [⟨.memoryBoundsFault, 255#9, some 0x47#8, some 256⟩]⟩ := by decide
theorem test_unknown_opcode_c0 : shown (step (placed 0 [0xC0])) =
    some ⟨0#9, 0xC0#8, .halted, some .unknownOpcode, [], [⟨.unknownOpcode, 0#9, some 0xC0#8, none⟩]⟩ := by decide

/-! ## The ALU (2.3, 2.4), the load port (2.7), the codes (60_exceptions.md R130), the notation around the machine -/

theorem test_alu_multiply : aluResult .mul 200 200 = .ok 64 ∧ aluResult .mul 3 86 = .ok 2 ∧ aluResult .mul 255 255 = .ok 1 := by decide
theorem test_alu_add : aluResult .add 250 10 = .ok 4 ∧ aluResult .add 128 128 = .ok 0 ∧ aluResult .add 200 100 = .ok 44 := by decide
theorem test_second_load_keeps_the_tail : (nextOf (bootWith [[1, 2, 3], [9]])).map State.mem = some [(0, 9#8), (1, 2#8), (2, 3#8)] := by decide
theorem test_load_257_bytes : shown (load (List.replicate 257 7) State.reset) =
    some ⟨0#9, 0#8, .faulted, some .loadOverflow, [], [⟨.loadOverflow, 0#9, none, some 257⟩]⟩ := by
  have length : (List.replicate 257 (7 : Byte)).length = 257 := List.length_replicate
  simp only [load, length]
  rfl
theorem test_cause_codes : [none, some StopCause.haltInstruction, some .unknownOpcode, some .unsupportedOperation,
    some .memoryBoundsFault, some .registerIndexFault, some .loadOverflow].map causeCode = [0, 1, 2, 3, 4, 5, 6] := by decide
theorem test_digits : decimalDigits 244 = ['2', '4', '4'] ∧ decimalDigits 90 = ['9', '0'] ∧ decimalDigits 0 = ['0'] := by decide
theorem test_assemble_p4 : (assemble "LOAD_IMMEDIATE R1, 5\nPRINT_REGISTER R1 ; five\n.byte 0x47, 9\nHALT".toList).toOption =
    some [0x82, 1, 5, 0x47, 1, 0x47, 9, 1] := by decide
/-- The two registers of MULTIPLY, and the immediate after the register (30_encoding.md R70). -/
theorem test_assemble_operand_order : asmBytes (.multiply 1 2) = [0xA2, 1, 2] ∧ asmBytes (.loadImmediate 7 255) = [0x82, 7, 255] := by decide
theorem test_assemble_refuses_r8 : parseLine "PRINT_REGISTER R8".toList = .error .badOperands ∧
    parseLine "ADD R0, R1".toList = .error .unknownMnemonic := by decide

/-! ## Witnesses: for each statement with hypotheses, a state and operands that meet them all -/

/-- A machine with an image loaded, as consistent as reset. -/
def loaded : State := placed 0 [0x82, 0x00, 0x08, 0x01]

/-- Also for StepKeepsTheMachineConsistent and LoadKeepsTheMachineConsistent below. -/
theorem loaded_consistent : loaded.Consistent := ⟨by decide, by decide, ⟨rfl, rfl⟩, by decide⟩

/-- A halted and a faulted machine. -/
def stoppedAs (st : Status) : State := { State.reset with status := st, started := true }

theorem witness_InstructionLengthIsOperandCountPlusOne : decode (0xA2#8 :: [0, 1, 0x47]) = .ok (.multiply 0 1, [0x47]) := by decide
theorem witness_DecodeRejectsByName : decode [] = .error .noBytes ∧ decode [0xFF] = .error (.unknownOpcode 0xFF) ∧
    decode [0xA2, 0] = .error (.missingOperand 2) := by decide
/-- LoadImmediateWritesItsRegister, MultiplyWritesTheProductModulo256, PrintRegisterAppendsTheRegister: the first and the
last register. -/
theorem witness_register_results : (7#8).toNat < 8 ∧ (0#8).toNat < 8 := by decide
theorem witness_RegisterIndexOfEightOrMoreFaults : 8 ≤ (8#8).toNat ∧ 8 ≤ (255#8).toNat ∧ (7#8).toNat < 8 := by decide
theorem witness_RegisterWritersFrame : (∃ t, exec (.loadImmediate 7 255) State.reset = .next t) ∧ (Instr.loadImmediate 7 255).wellFormed = true ∧
    (∃ t, exec (.multiply 0 7) State.reset = .next t) ∧ (Instr.multiply 0 7).wellFormed = true := ⟨⟨_, rfl⟩, by decide, ⟨_, rfl⟩, by decide⟩
theorem witness_HaltAndPrintRegisterFrame : (∃ t, exec .halt State.reset = .next t) ∧
    (∃ t, exec (.printRegister 7) State.reset = .next t) ∧ (Instr.printRegister 7).wellFormed = true := ⟨⟨_, rfl⟩, ⟨_, rfl⟩, by decide⟩
theorem witness_AluMultiplyWrapsModulo256 : (7#8).toNat = (7 : RegIdx).val ∧ (0#8).toNat = (0 : RegIdx).val := by decide
theorem witness_AluArithmeticIsUnsignedModulo256 : aluResult .mul 200 200 = .ok 64 ∧ (∃ t, alu .mul 0 7 State.reset = .ok t) ∧
    (7 : RegIdx) ≠ 0 := ⟨by decide, ⟨_, rfl⟩, by decide⟩
theorem witness_StepRunsTheDecodedInstruction :
    loaded.status = .running ∧ (∀ k b, [0x82#8, 0#8, 8#8][k]? = some b → memRead (loaded.pc.toNat + k) loaded = .ok b) ∧
    decode [0x82, 0, 8] = .ok (.loadImmediate 0 8, []) ∧ ∃ t, exec (.loadImmediate 0 8) { loaded with started := true, ir := 0x82#8 } = .next t :=
  ⟨rfl, fun k b => by match k with
    | 0 | 1 | 2 => rintro ⟨⟩; decide
    | _ + 3 => simp, by decide, ⟨_, rfl⟩⟩
theorem witness_HaltStep : (placed 255 [0x01]).status = .running ∧ memRead 255 (placed 255 [0x01]) = .ok 0x01#8 := by decide
theorem witness_LoadImmediateStep : let s := placed 253 [0x82, 7, 9]
    s.status = .running ∧ s.pc.toNat = 253 ∧ memRead 253 s = .ok 0x82#8 ∧ memRead 254 s = .ok 7#8 ∧ memRead 255 s = .ok 9#8 := by decide
theorem witness_MultiplyStep : let s := placed 253 [0xA2, 7, 7]
    s.status = .running ∧ s.pc.toNat = 253 ∧ memRead 253 s = .ok 0xA2#8 ∧ memRead 254 s = .ok 7#8 ∧ memRead 255 s = .ok 7#8 := by decide
theorem witness_PrintRegisterStep : let s := placed 254 [0x47, 7]
    s.status = .running ∧ s.pc.toNat = 254 ∧ memRead 254 s = .ok 0x47#8 ∧ memRead 255 s = .ok 7#8 := by decide
theorem witness_UnknownOpcodeHaltsWithADiagnostic : let s := placed 255 [0xC0]
    s.status = .running ∧ s.pc.toNat = 255 ∧ memRead 255 s = .ok 0xC0#8 ∧ dispatch 0xC0 = none := by decide
theorem witness_FetchAboveMemoryFaults : (placed 256 []).status = .running ∧ 255 < (placed 256 []).pc.toNat := by decide
theorem witness_OperandAboveMemoryFaultsFirst :
    memRead 254 (placed 254 [0x82, 9]) = .ok 0x82#8 ∧ (placed 254 [0x82, 9]).pc = 254#9 ∧
    memRead 255 (placed 255 [0xA2]) = .ok 0xA2#8 ∧ (placed 255 [0xA2]).pc = 255#9 ∧
    memRead 255 (placed 255 [0x47]) = .ok 0x47#8 ∧ (placed 255 [0x47]).pc = 255#9 ∧ (placed 255 [0x47]).status = .running := by decide
/-- Also LoopTestsTheStatusBeforeEveryFetch: its clause for a machine that is not Running. -/
theorem witness_StoppedMachineTakesNoStep : (stoppedAs .halted).status = .halted ∧ (stoppedAs .faulted).status = .faulted := by decide
/-- ProgramCounterAdvanceLaw (Running), FetchRecordsTheOpcode, OnlyTheDestinationRegisterChanges, OutputGrowsOnlyByPrintRegister,
RunningMachineAlwaysSteps, NoLoadAfterAStep, LoopTestsTheStatusBeforeEveryFetch (its Running clause). -/
theorem witness_a_step_that_goes_on : ∃ t, step loaded = .next t ∧ t.status = .running ∧ getReg 0 t ≠ getReg 0 loaded :=
  ⟨_, rfl, by decide, by decide⟩
/-- OutputGrowsOnlyByPrintRegister: its second case, at the last address it can run at. -/
theorem witness_a_step_that_prints : ∃ t, step (placed 254 [0x47, 7]) = .next t ∧ t.out = [244#8] := ⟨_, rfl, by decide⟩
/-- HaltedOnlyByHaltOrUnknownOpcode and HaltOperationSetsStatusAndCause (both cases), ProgramCounterAdvanceLaw (HALT at 255). -/
theorem witness_a_step_that_halts : (∃ t, step (placed 255 [0x01]) = .next t ∧ t.endedNormally) ∧
    (∃ t, step (placed 0 [0xA0]) = .next t ∧ t.endedNormally) ∧ dispatch 0xA0 = none := ⟨⟨_, rfl, by decide⟩, ⟨_, rfl, by decide⟩, by decide⟩
/-- StepFaultsArePrecise (both cases), FetchRecordsTheOpcode (pc above 255), ProgramCounterAdvanceLaw (its second clause). -/
theorem witness_a_step_that_faults : (∃ t, step (placed 256 []) = .next t ∧ t.endedAbnormally) ∧
    (∃ t, step (placed 0 [0x47, 8]) = .next t ∧ t.endedAbnormally) := ⟨⟨_, rfl, by decide⟩, ⟨_, rfl, by decide⟩⟩
theorem witness_FlagsRegisterIsInert : (∃ t, step loaded = .next t) ∧ (∃ e, step (stoppedAs .halted) = .fault e) := ⟨⟨_, rfl⟩, ⟨_, rfl⟩⟩
theorem witness_MemoryIsConstantInARun : ∃ t, runLoop 1 loaded = .next t := ⟨_, rfl⟩
theorem witness_StepKeepsTheMachineConsistent : loaded.Consistent ∧ ∃ t, step loaded = .next t := ⟨loaded_consistent, ⟨_, rfl⟩⟩
theorem witness_LoadKeepsTheMachineConsistent : loaded.Consistent ∧ ∃ t, load [9] loaded = .next t :=
  ⟨loaded_consistent, ⟨_, rfl⟩⟩
theorem witness_MemoryReadsBackWhatWasWritten : 255 ≤ 255 ∧ 255 < 256 ∧ memRead 255 State.reset = .ok 0#8 := by decide
theorem witness_CanonicalMemoriesThatReadAlikeAreEqual : Memory.wf [(0, 9#8), (255, 1#8)] ∧ ¬ Memory.wf [(0, 0#8)] ∧
    ¬ Memory.wf [(256, 1#8)] ∧ ¬ Memory.wf [(1, 1#8), (0, 1#8)] := by decide
theorem witness_LoadWritesTheImageFromAddressZero : loaded.started = false ∧ (List.replicate 256 (7#8)).length ≤ 256 :=
  ⟨rfl, List.length_replicate.le⟩
theorem witness_LoadRefusesLateImagesAndFaultsOnLongOnes : (stoppedAs .halted).started = true ∧ loaded.started = false ∧
    256 < (List.replicate 257 (7#8)).length := ⟨rfl, rfl, lt_of_lt_of_eq (by decide) List.length_replicate.symm⟩
theorem witness_BootLeavesTheMachineReadyToRun : ∀ img ∈ [[1#8, 2#8, 3#8], [9#8]], img.length ≤ 256 := by decide

end Sys2Proof.Tests
end

section
/-! PROOFS. What a successful decode says about the bytes it read (spec/30_encoding.md R60 to R64). -/

namespace Sys2Proof

/-- The bit field `op[7:6]` is the shift and mask of R60. -/
theorem operandCount_eq_shift_and (op : Byte) : operandCount op = ((op >>> 6) &&& 0b11#8).toNat := by
  rw [operandCount, BitVec.extractLsb_toNat, BitVec.toNat_and, BitVec.toNat_ushiftRight]
  exact (Nat.and_two_pow_sub_one_eq_mod (op.toNat >>> 6) 2).symm

/-- Operand byte k + 1 after an opcode is byte k of the tail. -/
theorem operandOfBytes_succ_ok_iff (op : Byte) (tail : List Byte) (k : Nat) (b : Byte) :
    operandOfBytes (op :: tail) (k + 1) = .ok b ↔ tail[k]? = some b := by
  rw [operandOfBytes, List.getElem?_cons_succ]
  cases tail[k]? <;> simp

/-- The operand reads of a byte list give `i` exactly when the tail begins with the operand bytes of `i`. -/
theorem readOperands_operandOfBytes_ok_iff (op : Byte) (tail : List Byte) (h : Handler) (i : Instr) :
    readOperands (operandOfBytes (op :: tail)) h = .ok i ↔ i.handler = h ∧ i.operands <+: tail := by
  simp only [readOperands_ok_iff, operandOfBytes_succ_ok_iff, List.prefix_iff_getElem?]
  refine and_congr_right fun _ => ⟨fun H k hk => H k _ (List.getElem?_eq_getElem hk), fun H k b hb => ?_⟩
  obtain ⟨hk, rfl⟩ := List.getElem?_eq_some_iff.mp hb
  exact H k hk

/-- A decoded list is the encoding of its instruction and then the rest. -/
theorem eq_encode_append_of_decode_ok {bs : List Byte} {i : Instr} {rest : List Byte}
    (hd : decode bs = .ok (i, rest)) : bs = encode i ++ rest := by
  unfold decode at hd
  split at hd
  case h_1 => simp at hd
  case h_2 op tail =>
    split at hd
    case h_1 => simp at hd
    case h_2 h hop =>
      split at hd
      case h_1 => simp at hd
      case h_2 j hread =>
        obtain ⟨rfl, rfl⟩ : j = i ∧ (op :: tail).drop (instrLength op) = rest := by simpa using hd
        obtain ⟨rfl, hpre⟩ := (readOperands_operandOfBytes_ok_iff op tail h j).mp hread
        obtain rfl := opcode_of_dispatch hop
        have hpre' : encode j <+: j.opcode :: tail := (List.prefix_cons_inj j.opcode).mpr hpre
        rw [instrLength_opcode]
        exact (List.prefix_iff_eq_append.mp hpre').symm

/-- Settles O3: the bytes before the rest are the instruction's encoding, whose length its opcode's length field
counts. -/
theorem instructionLengthIsOperandCountPlusOne : Obligations.InstructionLengthIsOperandCountPlusOne := by
  intro op tail i rest hd
  have hbytes : op :: tail = encode i ++ rest := eq_encode_append_of_decode_ok hd
  have hop : op = i.opcode := (List.cons.inj hbytes).1
  calc (op :: tail).length = rest.length + (encode i).length := by rw [hbytes, List.length_append, Nat.add_comm]
    _ = rest.length + instrLength op := by rw [hop, instrLength_opcode]
    _ = rest.length + (((op >>> 6) &&& 0b11#8).toNat + 1) := by rw [instrLength, operandCount_eq_shift_and]

end Sys2Proof
end

section
/-! The ALU: its results as numbers, the one register it writes, and its call from MULTIPLY (spec/40_alu.md R81, R85). -/

namespace Sys2Proof.Machine

/-- The ALU writes the product of the two old values, whether or not the registers differ. -/
theorem alu_mul (d src : RegIdx) (s : State) :
    alu .mul d src s = .ok (setReg d (BitVec.ofNat 8 ((getReg d s).toNat * (getReg src s).toNat % 256)) s) := rfl

/-- A MULTIPLY whose operand bytes name the registers d and src is the ALU's MUL on them (R93). -/
theorem exec_multiply_of_registers {a b : Byte} {d src : RegIdx} (ha : a.toNat = d.val) (hb : b.toNat = src.val)
    (s : State) : exec (.multiply a b) s = finishHandler s (alu .mul d src s) := by
  obtain ⟨d, hd⟩ := d
  obtain ⟨src, hsrc⟩ := src
  subst ha hb
  exact (finishHandler_register_ok hd s _).trans (finishHandler_register_ok hsrc s _)

theorem aluResult_mul_comm (a b : Byte) : aluResult .mul a b = aluResult .mul b a := by
  rw [aluResult, aluResult, Nat.mul_comm]

/-- Only the operations of the ALU's vocabulary give a result (R83). -/
theorem eq_mul_or_add_of_aluResult_ok {op : AluOp} {a b r : Byte} (h : aluResult op a b = .ok r) :
    op = .mul ∨ op = .add := by
  cases op with
  | mul => exact .inl rfl
  | add => exact .inr rfl
  | unrecognised n => cases h

/-- No operation of the ALU changes a register other than its destination (R80). -/
theorem getReg_of_alu_ok {op : AluOp} {d src j : RegIdx} {s t : State} (h : alu op d src s = .ok t) (hj : j ≠ d) :
    getReg j t = getReg j s := by
  obtain ⟨v, -, hv⟩ | ⟨n, -, hn⟩ := alu_cases op d src s
  · obtain rfl : setReg d v s = t := Except.ok.inj (hv.symm.trans h)
    rw [getReg_setReg, if_neg hj]
  · cases hn.symm.trans h

/-- Settles O12: the ALU's MUL writes only its destination, and MULTIPLY hands it the registers its operands name. -/
theorem aluMultiplyWrapsModulo256 : Obligations.AluMultiplyWrapsModulo256 := by
  intro s d src
  exact ⟨alu_mul d src s, fun a b ha hb => ⟨rfl, exec_multiply_of_registers ha hb s⟩⟩

/-- Settles O15: the two operations reduce the exact result, MUL commutes, and the ALU writes only its destination. -/
theorem aluArithmeticIsUnsignedModulo256 : Obligations.AluArithmeticIsUnsignedModulo256 := by
  refine ⟨fun a b => ⟨_, rfl, ?mulResult⟩, fun a b => ⟨_, rfl, ?addResult⟩,
    fun _ _ _ _ => eq_mul_or_add_of_aluResult_ok, aluResult_mul_comm, fun _ _ _ _ _ => getReg_of_alu_ok⟩
  case mulResult | addResult => rw [BitVec.toNat_ofNat, Nat.mod_mod]

end Sys2Proof.Machine
end

section
/-! The loop: its rules for a machine that is Running and for one that is not (spec/42_execution_loop.md R117). -/

namespace Sys2Proof.Machine

/-- The derived flag is the status test of R28. -/
theorem State.running_iff {s : State} : s.running ↔ s.status = .running := by
  rw [State.running, beq_iff_eq]

/-- With no round left the loop stops too, so the number of rounds does not matter. -/
theorem runLoop_of_not_running (n : Nat) {s : State} (h : s.status ≠ .running) : runLoop n s = .next s := by
  cases n with
  | zero => rfl
  | succ n => exact if_neg (mt State.running_iff.mp h)

theorem runLoop_succ_of_step {s t : State} (n : Nat) (h : s.status = .running) (hstep : step s = .next t) :
    runLoop (n + 1) s = runLoop n t := by
  rw [runLoop, if_pos (State.running_iff.mpr h), hstep]

/-- Settles O35: the loop's rules for a stopped and for a Running machine, and the status at reset. -/
theorem loopTestsTheStatusBeforeEveryFetch : Obligations.LoopTestsTheStatusBeforeEveryFetch :=
  ⟨fun n _ => runLoop_of_not_running n, fun n _ _ => runLoop_succ_of_step n, rfl⟩

end Sys2Proof.Machine
end

section
/-! The two halts: one step at HALT and one at an opcode outside the table (spec/60_exceptions.md R132). -/

namespace Sys2Proof.Machine

/-- Only a Running machine has a next state (R110). -/
theorem running_of_step {s t : State} (h : step s = .next t) : s.status = .running := by
  cases hs : s.status with
  | running => rfl
  | halted | faulted => simp [step, stepDisabled, hs] at h

/-- A byte read from memory is the one that stands at its address, which is one of the 256 (R42). -/
theorem memRead_ok_iff {a : Nat} {b : Byte} {s : State} : memRead a s = .ok b ↔ a < 256 ∧ s.mem.read a = b := by
  obtain ⟨ha, hr⟩ | ⟨ha, hr⟩ := memRead_cases a s
  · simp [hr, ha]
  · simp [hr, ha.not_gt]

/-- HALT is the only instruction whose opcode is 0x01 (R64). -/
theorem eq_halt_of_opcode {i : Instr} (h : i.opcode = 0x01#8) : i = .halt := by
  cases i with
  | halt => rfl
  | loadImmediate | multiply | printRegister => simp [Instr.opcode] at h

/-- A step at HALT halts, with no operand to read, and then advances (R91, R114). -/
theorem step_of_haltOpcode {s : State} (hs : s.status = .running) (hp : s.pc.toNat < 256)
    (hop : s.mem.read s.pc.toNat = 0x01#8) :
    step s = .next (advancePc (haltWith .haltInstruction (handlerStart s))) := by
  obtain ⟨hpc, -⟩ | ⟨-, hd, -⟩ | ⟨-, k, -, hk, hcount, -⟩ | ⟨i, u, -, hi, -, hexec, hstep⟩ := step_cases hs
  case inl => omega
  case inr.inl => exact absurd hop ((dispatch_eq_none_iff _).mp hd).1
  case inr.inr.inl =>
    rw [hop, operandCount_table.1] at hcount
    omega
  case inr.inr.inr =>
    obtain rfl : i = .halt := eq_halt_of_opcode (hi.symm.trans hop)
    obtain rfl : haltWith .haltInstruction (handlerStart s) = u := Host.Outcome.next.inj hexec
    exact hstep

/-- A step at an opcode outside the table is the unknown-opcode halt (R113). -/
theorem step_of_dispatch_none {s : State} (hs : s.status = .running) (hp : s.pc.toNat < 256)
    (hd : dispatch (s.mem.read s.pc.toNat) = none) :
    step s = .next (unknownOpcodeHalt (s.mem.read s.pc.toNat) (handlerStart s)) := by
  obtain ⟨hpc, -⟩ | ⟨-, -, hstep⟩ | ⟨h, -, hsome, -⟩ | ⟨i, -, -, hi, -⟩ := step_cases hs
  case inl => omega
  case inr.inl => exact hstep
  case inr.inr.inl => cases hd.symm.trans hsome
  case inr.inr.inr =>
    rw [hi, dispatch_opcode] at hd
    cases hd

/-- The advance past an opcode without operands adds 1, at address 255 too (R114). -/
theorem advancePc_pc_toNat_of_haltOpcode {s : State} (hp : s.pc.toNat < 256) (hir : s.ir = 0x01#8) :
    (advancePc s).pc.toNat = s.pc.toNat + 1 := by
  have hlen : instrLength s.ir = 1 := by rw [hir, instrLength, operandCount_table.1]
  rw [advancePc_pc, hlen, BitVec.toNat_ofNat, Nat.mod_eq_of_lt (by omega)]

/-- Settles O34: `haltWith` writes the two fields, and the step's two callers of it differ in the event and in `pc`. -/
theorem haltOperationSetsStatusAndCause : Obligations.HaltOperationSetsStatusAndCause := by
  refine ⟨fun _ _ _ => rfl, fun s t hstep hread => ?halt, fun s t op hstep hread hd => ?unknown⟩
  case halt =>
    obtain ⟨hp, hop⟩ := memRead_ok_iff.mp hread
    obtain rfl := Host.Outcome.next.inj ((step_of_haltOpcode (running_of_step hstep) hp hop).symm.trans hstep)
    exact ⟨rfl, rfl, rfl, advancePc_pc_toNat_of_haltOpcode hp hop⟩
  case unknown =>
    obtain ⟨hp, rfl⟩ := memRead_ok_iff.mp hread
    obtain rfl := Host.Outcome.next.inj ((step_of_dispatch_none (running_of_step hstep) hp hd).symm.trans hstep)
    exact ⟨rfl, rfl, rfl, _, rfl, rfl⟩

end Sys2Proof.Machine
end

section
/-! PROOFS. The decoder on the encoder's bytes and on every list that is not an instruction (spec/30_encoding.md R62 to
R69). -/

namespace Sys2Proof

/-- An encoding with any bytes after it decodes to its instruction and those bytes. -/
theorem decode_encode_append (i : Instr) (rest : List Byte) : decode (encode i ++ rest) = .ok (i, rest) := by
  have hread : readOperands (operandOfBytes (i.opcode :: (i.operands ++ rest))) i.handler = .ok i :=
    (readOperands_operandOfBytes_ok_iff _ _ _ _).mpr ⟨rfl, List.prefix_append _ _⟩
  have hdrop : (encode i ++ rest).drop (instrLength i.opcode) = rest := by
    rw [instrLength_opcode, List.drop_left]
  simp only [decode, encode, List.cons_append, dispatch_opcode, hread] at hdrop ⊢
  rw [hdrop]

/-- Settles O1: a decoded list is an encoding and the rest, and every such list decodes. -/
theorem decodeAcceptsExactlyTheEncodings : Obligations.DecodeAcceptsExactlyTheEncodings := by
  intro bs i rest
  constructor
  · exact eq_encode_append_of_decode_ok
  · rintro rfl
    exact decode_encode_append i rest

theorem decode_of_dispatch_none {op : Byte} (h : dispatch op = none) (tail : List Byte) :
    decode (op :: tail) = .error (.unknownOpcode op) := by
  simp only [decode, h]

/-- Operand byte k + 1 after an opcode is missing exactly when the tail has at most k bytes. -/
theorem operandOfBytes_succ_error_iff (op : Byte) (tail : List Byte) (k : Nat) (e : DecodeError) :
    operandOfBytes (op :: tail) (k + 1) = .error e ↔ tail.length ≤ k ∧ e = .missingOperand (k + 1) := by
  rw [operandOfBytes, List.getElem?_cons_succ, ← List.getElem?_eq_none_iff]
  cases tail[k]? <;> simp [eq_comm]

/-- A rejection behind a known opcode names the first operand byte that is missing. -/
theorem missingOperand_of_decode_error {op : Byte} {h : Handler} (hop : dispatch op = some h) {tail : List Byte}
    {e : DecodeError} (he : decode (op :: tail) = .error e) :
    tail.length < operandCount op ∧ e = .missingOperand (tail.length + 1) := by
  cases hread : readOperands (operandOfBytes (op :: tail)) h with
  | ok i => simp [decode, hop, hread] at he
  | error e' =>
    obtain rfl : e' = e := by simpa [decode, hop, hread] using he
    obtain ⟨k, h1, hcount, hk, hbefore⟩ := readOperands_error hop hread
    obtain ⟨k, rfl⟩ : ∃ j, k = j + 1 := ⟨k - 1, by omega⟩
    obtain ⟨hmissing, rfl⟩ := (operandOfBytes_succ_error_iff op tail k e').mp hk
    have hfirst : k ≤ tail.length := by
      by_contra hlt
      obtain ⟨b, hb⟩ := hbefore (tail.length + 1) (by omega) (by omega)
      have hnone := (operandOfBytes_succ_error_iff op tail tail.length _).mpr ⟨le_rfl, rfl⟩
      cases hb.symm.trans hnone
    obtain rfl : k = tail.length := le_antisymm hfirst hmissing
    exact ⟨hcount, rfl⟩

/-- Behind a known opcode too few bytes are rejected, since a decoded list has room for every operand. -/
theorem exists_decode_error_of_short {op : Byte} {tail : List Byte} (hshort : tail.length < operandCount op) :
    ∃ e, decode (op :: tail) = .error e := by
  cases hd : decode (op :: tail) with
  | error e => exact ⟨e, rfl⟩
  | ok res =>
    obtain ⟨i, rest⟩ := res
    obtain ⟨rfl, rfl⟩ : op = i.opcode ∧ tail = i.operands ++ rest :=
      List.cons.inj (eq_encode_append_of_decode_ok hd)
    rw [operandCount_opcode, List.length_append] at hshort
    omega

/-- The opcodes with operand bytes are the known ones other than HALT's. -/
theorem dispatch_ne_none_iff_of_operands {op : Byte} (h : 0 < operandCount op) :
    dispatch op ≠ none ↔ op = 0x82#8 ∨ op = 0xA2#8 ∨ op = 0x47#8 := by
  have halt : op ≠ 0x01#8 := by
    rintro rfl
    simp [operandCount_table.1] at h
  rw [ne_eq, dispatch_eq_none_iff]
  tauto

/-- Settles O4: no byte, an opcode outside the table, or a known opcode with too few bytes after it. -/
theorem decodeRejectsByName : Obligations.DecodeRejectsByName := by
  intro bs e
  simp only [← operandCount_eq_shift_and]
  constructor
  case mp =>
    intro he
    match bs with
    | [] => exact .inl ⟨rfl, (Except.error.inj he).symm⟩
    | op :: tail =>
      right
      cases hop : dispatch op with
      | none =>
        obtain ⟨h1, h2, h3, h4⟩ := (dispatch_eq_none_iff op).mp hop
        have hname := Except.error.inj ((decode_of_dispatch_none hop tail).symm.trans he)
        exact .inl ⟨op, tail, rfl, h1, h2, h3, h4, hname.symm⟩
      | some h =>
        obtain ⟨hshort, rfl⟩ := missingOperand_of_decode_error hop he
        have hknown := (dispatch_ne_none_iff_of_operands (Nat.zero_lt_of_lt hshort)).mp (by simp [hop])
        exact .inr ⟨op, tail, rfl, hknown, hshort, rfl⟩
  case mpr =>
    rintro (⟨rfl, rfl⟩ | ⟨op, tail, rfl, h1, h2, h3, h4, rfl⟩ | ⟨op, tail, rfl, hknown, hshort, rfl⟩)
    · rfl
    · exact decode_of_dispatch_none ((dispatch_eq_none_iff op).mpr ⟨h1, h2, h3, h4⟩) tail
    · obtain ⟨e, he⟩ := exists_decode_error_of_short hshort
      have hsome := (dispatch_ne_none_iff_of_operands (Nat.zero_lt_of_lt hshort)).mpr hknown
      obtain ⟨h, hop⟩ := Option.ne_none_iff_exists'.mp hsome
      obtain ⟨-, rfl⟩ := missingOperand_of_decode_error hop he
      exact he

/-- Settles O2: the four words are encodings, and the other three begin with no opcode of the table. -/
theorem specWordsDecodeToTheirInstructions : Obligations.SpecWordsDecodeToTheirInstructions :=
  ⟨decode_encode_append .halt [], decode_encode_append (.loadImmediate 0 8) [],
    decode_encode_append (.multiply 0 1) [], decode_encode_append (.printRegister 7) [],
    decode_of_dispatch_none rfl _, decode_of_dispatch_none rfl _, decode_of_dispatch_none rfl _⟩

end Sys2Proof
end

section
/-! PROOFS. The effect and the frame of each instruction and of the ALU operations that no instruction calls
(spec/40_alu.md R82, R83; spec/41_instructions.md R91 to R95). -/

namespace Sys2Proof.Machine

/-! ## Effects -/

/-- Settles O5: HALT is `haltWith` with its own cause. -/
theorem haltStopsTheMachine : Obligations.HaltStopsTheMachine := fun _ => rfl

/-- Settles O6: the register check passes and the one write is the destination's. -/
theorem loadImmediateWritesItsRegister : Obligations.LoadImmediateWritesItsRegister :=
  fun s _ _ h => finishHandler_register_ok h s _

/-- Settles O7: MULTIPLY is the ALU's MUL on the registers its operands name. -/
theorem multiplyWritesTheProductModulo256 : Obligations.MultiplyWritesTheProductModulo256 := by
  intro s a b ha hb
  rw [exec_multiply_of_registers (d := ⟨a.toNat, ha⟩) (src := ⟨b.toNat, hb⟩) rfl rfl, alu_mul]
  rfl

/-- Settles O8: the register check passes and the one effect is the byte appended. -/
theorem printRegisterAppendsTheRegister : Obligations.PrintRegisterAppendsTheRegister :=
  fun s _ h => finishHandler_register_ok h s _

/-- Settles O9: the first register check fails, or, for MULTIPLY, passes and the second fails. -/
theorem registerIndexOfEightOrMoreFaults : Obligations.RegisterIndexOfEightOrMoreFaults := by
  intro s p q
  refine ⟨fun hp => ⟨?_, ?_, ?_⟩, fun hp hq => ?_⟩
  · exact finishHandler_register_error hp s _
  · exact finishHandler_register_error hp s _
  · exact finishHandler_register_error hp s _
  · exact (finishHandler_register_ok hp s _).trans (finishHandler_register_error hq s _)

/-- Settles O13: the ALU writes the sum of the two old values, whether or not the registers differ. -/
theorem aluAddWrapsModulo256 : Obligations.AluAddWrapsModulo256 := fun _ _ _ => rfl

/-- Settles O14: the ALU raises before it writes, and the handler takes the fault in the state it began in. -/
theorem aluUnsupportedOperationIsFatal : Obligations.AluUnsupportedOperationIsFatal := by
  intro s d src select
  obtain ⟨v, hv, -⟩ | ⟨n, hn, halu⟩ := alu_cases (.unrecognised select) d src s
  · cases hv
  · obtain rfl := AluOp.unrecognised.inj hn
    rw [halu]
    rfl

/-! ## Frames -/

/-- A register writer writes its destination, or its operands are ill-formed and it faults. -/
theorem registerWriter_cases {i : Instr} {d o : Byte} (hi : i = .loadImmediate d o ∨ i = .multiply d o) {s t : State}
    (h : exec i s = .next t) :
    (∃ hd : d.toNat < 8, ∃ v, t = setReg ⟨d.toNat, hd⟩ v s) ∨
      (i.wellFormed = false ∧ ∃ r, t = raiseFault (some s.ir) r s) := by
  obtain ⟨rfl, -⟩ | ⟨d', v, hd, rfl, he⟩ | ⟨d', o', v, hd, -, rfl, he⟩ | ⟨r, hr, rfl, -⟩ | ⟨b, -, -, hwf, he⟩ :=
    exec_cases i s
  case inl => simp at hi
  case inr.inl =>
    obtain ⟨rfl, rfl⟩ : d' = d ∧ v = o := by simpa using hi
    exact .inl ⟨hd, v, Host.Outcome.next.inj (h.symm.trans he)⟩
  case inr.inr.inl =>
    obtain ⟨rfl, rfl⟩ : d' = d ∧ o' = o := by simpa using hi
    exact .inl ⟨hd, v, Host.Outcome.next.inj (h.symm.trans he)⟩
  case inr.inr.inr.inl => simp at hi
  case inr.inr.inr.inr => exact .inr ⟨hwf, _, Host.Outcome.next.inj (h.symm.trans he)⟩

/-- Settles O10: a register write keeps all but its register, and a fault keeps all but the run control. -/
theorem registerWritersFrame : Obligations.RegisterWritersFrame := by
  intro s t i d o hi h
  obtain ⟨hd, v, rfl⟩ | ⟨hwf, r, rfl⟩ := registerWriter_cases hi h
  · refine ⟨fun j hj => ?_, memRead_congr rfl, rfl, rfl, rfl, rfl, rfl, fun _ => ⟨rfl, rfl, rfl⟩⟩
    rw [getReg_setReg, if_neg (fun e => hj (congrArg Fin.val e))]
  · exact ⟨fun _ _ => rfl, memRead_congr rfl, rfl, rfl, rfl, rfl, rfl, fun h => by simp [hwf] at h⟩

/-- PRINT_REGISTER appends a register, or its operand is ill-formed and it faults. -/
theorem printRegister_cases {r : Byte} {s t : State} (h : exec (.printRegister r) s = .next t) :
    (∃ v, t = emitOut v s) ∨
      ((Instr.printRegister r).wellFormed = false ∧ ∃ e, t = raiseFault (some s.ir) e s) := by
  obtain ⟨hi, -⟩ | ⟨_, _, _, hi, -⟩ | ⟨_, _, _, _, _, hi, -⟩ | ⟨r', hr, -, he⟩ | ⟨b, -, -, hwf, he⟩ :=
    exec_cases (.printRegister r) s
  case inr.inr.inr.inl => exact .inl ⟨_, Host.Outcome.next.inj (h.symm.trans he)⟩
  case inr.inr.inr.inr => exact .inr ⟨hwf, _, Host.Outcome.next.inj (h.symm.trans he)⟩
  all_goals cases hi

/-- Settles O11: HALT writes run control alone, PRINT_REGISTER the output alone, and its fault run control alone. -/
theorem haltAndPrintRegisterFrame : Obligations.HaltAndPrintRegisterFrame := by
  rintro s t i r (rfl | rfl) h
  · obtain rfl := Host.Outcome.next.inj h
    exact ⟨fun _ => rfl, memRead_congr rfl, rfl, rfl, rfl, rfl, fun _ => ⟨rfl, rfl⟩, fun hne => absurd rfl hne⟩
  · obtain ⟨v, rfl⟩ | ⟨hwf, e, rfl⟩ := printRegister_cases h
    · exact ⟨fun _ => rfl, memRead_congr rfl, rfl, rfl, rfl, rfl, nofun, fun _ _ => ⟨rfl, rfl, rfl⟩⟩
    · exact ⟨fun _ => rfl, memRead_congr rfl, rfl, rfl, rfl, rfl, nofun, fun _ h => by simp [hwf] at h⟩

end Sys2Proof.Machine
end

section
/-! PROOFS. One step at each opcode and at the ends of memory (spec/42_execution_loop.md R110 to R116): the fetch and
the handler's exact effect give the exact next state. -/

namespace Sys2Proof.Machine

/-! ## The instruction at `pc` -/

/-- The bytes stand in memory at ascending addresses from `a` on (20_memory.md R45). -/
def holdsBytes (s : State) (a : Nat) (bs : List Byte) : Prop :=
  ∀ k b, bs[k]? = some b → memRead (a + k) s = .ok b

theorem holdsBytes_nil (s : State) (a : Nat) : holdsBytes s a [] := nofun

theorem holdsBytes_cons {s : State} {a : Nat} {b : Byte} {bs : List Byte} (hb : memRead a s = .ok b)
    (hbs : holdsBytes s (a + 1) bs) : holdsBytes s a (b :: bs) := by
  intro k c hk
  match k with
  | 0 => exact Option.some.inj hk ▸ hb
  | k + 1 =>
    rw [Nat.add_comm k 1, ← Nat.add_assoc]
    exact hbs k c hk

theorem holdsBytes_of_append {s : State} {a : Nat} {bs cs : List Byte} (h : holdsBytes s a (bs ++ cs)) :
    holdsBytes s a bs := by
  intro k b hk
  obtain ⟨hlt, -⟩ := List.getElem?_eq_some_iff.mp hk
  exact h k b ((List.getElem?_append_left hlt).trans hk)

/-- The fetch reads the instruction that stands at `pc`. -/
theorem fetchInstr_of_holdsBytes {s : State} {i : Instr} (h : holdsBytes s s.pc.toNat (encode i)) :
    fetchInstr s = .ok (i, setIr i.opcode s) := by
  have hop : memRead s.pc.toNat s = .ok i.opcode := h 0 i.opcode rfl
  have hoperands : readOperands (operandByte (setIr i.opcode s)) i.handler = .ok i :=
    (readOperands_ok_iff _ _ _).mpr ⟨rfl, fun k b hk => h (k + 1) b hk⟩
  simp only [fetchInstr, hop, dispatch_opcode, hoperands]

/-- A step runs the instruction at `pc` and then advances, unless the handler raised. -/
theorem step_of_holdsBytes {s t : State} {i : Instr} (hs : s.status = .running)
    (h : holdsBytes s s.pc.toNat (encode i)) (hexec : exec i (setIr i.opcode (beginStep s)) = .next t) :
    step s = .next (afterHandler t) := by
  have hfetch : fetchInstr (beginStep s) = .ok (i, setIr i.opcode (beginStep s)) := fetchInstr_of_holdsBytes h
  simp only [step, stepDisabled_running hs, hfetch, hexec]

/-- No instruction writes `ir`. -/
theorem ir_of_exec {i : Instr} {s t : State} (h : exec i s = .next t) : t.ir = s.ir := by
  obtain ⟨-, he⟩ | ⟨_, _, _, -, he⟩ | ⟨_, _, _, _, -, -, he⟩ | ⟨_, _, -, he⟩ | ⟨_, -, -, -, he⟩ := exec_cases i s
  all_goals
    obtain rfl := Host.Outcome.next.inj (he.symm.trans h)
    rfl

/-- Settles O16: decoded bytes are an encoding, and the advance adds its length. -/
theorem stepRunsTheDecodedInstruction : Obligations.StepRunsTheDecodedInstruction := by
  intro s t bs rest i hs hmem hdecode hexec
  obtain rfl := eq_encode_append_of_decode_ok hdecode
  have hir : t.ir = i.opcode := ir_of_exec hexec
  rw [step_of_holdsBytes hs (holdsBytes_of_append hmem) hexec, afterHandler, advancePc, hir, instrLength_opcode]

/-- A step whose handler does not raise answers the handler's state, past the instruction's bytes. -/
theorem step_of_exec_not_faulted {s t : State} {i : Instr} (hs : s.status = .running)
    (h : holdsBytes s s.pc.toNat (encode i)) (hexec : exec i (setIr i.opcode (beginStep s)) = .next t)
    (ht : t.status ≠ .faulted) :
    step s = .next { t with pc := BitVec.ofNat 9 (t.pc.toNat + (encode i).length) } := by
  rw [step_of_holdsBytes hs h hexec, afterHandler, if_neg ht, advancePc, ir_of_exec hexec, setIr_ir,
    instrLength_opcode]

/-- Settles O17: the byte at `pc` is HALT, and its effect is that of O5. -/
theorem haltStep : Obligations.HaltStep := by
  intro s hs h0
  have hat : holdsBytes s s.pc.toNat (encode .halt) := holdsBytes_cons h0 (holdsBytes_nil _ _)
  exact step_of_exec_not_faulted hs hat (haltStopsTheMachine _) nofun

/-- Settles O18: the three bytes at `pc` are the instruction's, and its effect is that of O6. -/
theorem loadImmediateStep : Obligations.LoadImmediateStep := by
  intro s r v hr hs h0 h1 h2
  have hat : holdsBytes s s.pc.toNat (encode (.loadImmediate r v)) :=
    holdsBytes_cons h0 (holdsBytes_cons h1 (holdsBytes_cons h2 (holdsBytes_nil _ _)))
  exact step_of_exec_not_faulted hs hat (loadImmediateWritesItsRegister _ r v hr) (by simp [hs])

/-- Settles O19: the three bytes at `pc` are the instruction's, and its effect is that of O7. -/
theorem multiplyStep : Obligations.MultiplyStep := by
  intro s a b ha hb hs h0 h1 h2
  have hat : holdsBytes s s.pc.toNat (encode (.multiply a b)) :=
    holdsBytes_cons h0 (holdsBytes_cons h1 (holdsBytes_cons h2 (holdsBytes_nil _ _)))
  exact step_of_exec_not_faulted hs hat (multiplyWritesTheProductModulo256 _ a b ha hb) (by simp [hs])

/-- Settles O20: the two bytes at `pc` are the instruction's, and its effect is that of O8. -/
theorem printRegisterStep : Obligations.PrintRegisterStep := by
  intro s r hr hs h0 h1
  have hat : holdsBytes s s.pc.toNat (encode (.printRegister r)) :=
    holdsBytes_cons h0 (holdsBytes_cons h1 (holdsBytes_nil _ _))
  exact step_of_exec_not_faulted hs hat (printRegisterAppendsTheRegister _ r hr) (by simp [hs])

/-! ## Steps that end before a handler -/

/-- Settles O21: the step at an opcode outside the table. -/
theorem unknownOpcodeHaltsWithADiagnostic : Obligations.UnknownOpcodeHaltsWithADiagnostic := by
  intro s op hs hread h1 h2 h3 h4
  obtain ⟨hp, rfl⟩ := memRead_ok_iff.mp hread
  exact step_of_dispatch_none hs hp ((dispatch_eq_none_iff _).mpr ⟨h1, h2, h3, h4⟩)

/-- A step whose fetch lies above 255 faults with that address. -/
theorem step_of_pc_above {s : State} (hs : s.status = .running) (hp : 256 ≤ s.pc.toNat) :
    step s = .next (raiseFault none ⟨.memoryBoundsFault, s.pc.toNat⟩ (beginStep s)) := by
  obtain ⟨-, hstep⟩ | ⟨hlt, -⟩ | ⟨_, k, hd, _, hcount, hk, -⟩ | ⟨_, _, hlt, -⟩ := step_cases hs
  case inl => exact hstep
  all_goals omega

/-- Settles O22: the fetch faults before it writes `ir`. -/
theorem fetchAboveMemoryFaults : Obligations.FetchAboveMemoryFaults := fun _ hs hp => step_of_pc_above hs hp

/-- A step at a known opcode whose operand bytes do not all lie in 0..255 faults at address 256. -/
theorem step_of_operand_above {s : State} {h : Handler} (hs : s.status = .running) (hp : s.pc.toNat < 256)
    (hd : dispatch (s.mem.read s.pc.toNat) = some h)
    (habove : 256 ≤ s.pc.toNat + operandCount (s.mem.read s.pc.toNat)) :
    step s = .next (raiseFault (some (s.mem.read s.pc.toNat)) ⟨.memoryBoundsFault, 256⟩ (handlerStart s)) := by
  obtain ⟨hpc, -⟩ | ⟨-, hnone, -⟩ | ⟨-, -, -, -, -, -, hstep⟩ | ⟨i, _, hlt, hi, -⟩ := step_cases hs
  case inl => omega
  case inr.inl => cases hnone.symm.trans hd
  case inr.inr.inl => exact hstep
  case inr.inr.inr =>
    rw [hi, operandCount_opcode] at habove
    omega

/-- Settles O23: at each of these addresses an operand byte of the opcode would lie at 256. -/
theorem operandAboveMemoryFaultsFirst : Obligations.OperandAboveMemoryFaultsFirst := by
  intro s op hs hread hcase
  obtain ⟨hp, rfl⟩ := memRead_ok_iff.mp hread
  have habove : ∃ h, dispatch (s.mem.read s.pc.toNat) = some h ∧
      256 ≤ s.pc.toNat + operandCount (s.mem.read s.pc.toNat) := by
    obtain ⟨hop | hop, hpc | hpc⟩ | ⟨hop, hpc⟩ := hcase
    all_goals
      rw [hop, hpc]
      exact ⟨_, rfl, by decide⟩
  obtain ⟨h, hd, h256⟩ := habove
  exact step_of_operand_above hs hp hd h256

/-! ## Whether a step is enabled -/

/-- Settles O24: the status decides, before any fetch. -/
theorem stoppedMachineTakesNoStep : Obligations.StoppedMachineTakesNoStep :=
  fun s => ⟨fun h => by simp [step, stepDisabled, h], fun h => by simp [step, stepDisabled, h]⟩

end Sys2Proof.Machine
end

section
/-! PROOFS. What every step does, said once as `StepEffect`, and the laws of the step that follow from it by cases
(spec/42_execution_loop.md R110 to R121; spec/60_exceptions.md R130 to R134). -/

namespace Sys2Proof.Machine

/-! ## The effects of a step -/

/-- The six things a step from `s` can do: `step_cases` with the effect of each instruction in it. The byte at `pc` is
`s.mem.read s.pc.toNat`, which `handlerStart s` holds in `ir`. -/
inductive StepEffect (s : State) : State → Prop
  /-- The fetch lies above 255. -/
  | fetchFault (hp : 256 ≤ s.pc.toNat) :
      StepEffect s (raiseFault none ⟨.memoryBoundsFault, s.pc.toNat⟩ (beginStep s))
  /-- The byte at `pc` is not in the dispatch table. -/
  | unknownOpcode (hp : s.pc.toNat < 256) (hd : dispatch (s.mem.read s.pc.toNat) = none) :
      StepEffect s (unknownOpcodeHalt (s.mem.read s.pc.toNat) (handlerStart s))
  /-- An operand byte lies above 255 or names no register. -/
  | operandFault (hp : s.pc.toNat < 256) (hop : s.mem.read s.pc.toNat ≠ 0x01#8) (c : StopCause) (n : Nat)
      (hc : c = .memoryBoundsFault ∨ c = .registerIndexFault) :
      StepEffect s (raiseFault (some (s.mem.read s.pc.toNat)) ⟨c, n⟩ (handlerStart s))
  /-- HALT. -/
  | halt (hp : s.pc.toNat < 256) (hop : s.mem.read s.pc.toNat = 0x01#8) :
      StepEffect s (advancePc (haltWith .haltInstruction (handlerStart s)))
  /-- LOAD_IMMEDIATE or MULTIPLY with the destination `d`. -/
  | writeRegister (hp : s.pc.toNat + 1 < 256) (hop : s.mem.read s.pc.toNat = 0x82#8 ∨ s.mem.read s.pc.toNat = 0xA2#8)
      (d v : Byte) (hd : d.toNat < 8) (hread : s.mem.read (s.pc.toNat + 1) = d) :
      StepEffect s (advancePc (setReg ⟨d.toNat, hd⟩ v (handlerStart s)))
  /-- PRINT_REGISTER `r`. -/
  | print (hp : s.pc.toNat + 1 < 256) (hop : s.mem.read s.pc.toNat = 0x47#8) (r : Byte) (hr : r.toNat < 8)
      (hread : s.mem.read (s.pc.toNat + 1) = r) :
      StepEffect s (advancePc (emitOut (getReg ⟨r.toNat, hr⟩ s) (handlerStart s)))

/-- The first operand byte of the instruction at `pc` lies in memory, right after the opcode. -/
theorem first_operand_read {s : State} {i : Instr} {b : Byte} {bs : List Byte} (hi : i.operands = b :: bs)
    (hlen : s.pc.toNat + i.operands.length < 256)
    (hops : ∀ k c, i.operands[k]? = some c → s.mem.read (s.pc.toNat + (k + 1)) = c) :
    s.pc.toNat + 1 < 256 ∧ s.mem.read (s.pc.toNat + 1) = b := by
  rw [hi, List.length_cons] at hlen
  exact ⟨by omega, hops 0 b (by rw [hi]; rfl)⟩

/-- A handler that did not raise is followed by the advance. -/
theorem stepEffect_afterHandler {s u : State} (hu : u.status ≠ .faulted) (h : StepEffect s (advancePc u)) :
    StepEffect s (afterHandler u) := by
  rwa [afterHandler, if_neg hu]

/-- An instruction that stands at `pc` has one of the effects of a step. -/
theorem stepEffect_of_exec {s u : State} {i : Instr} (hs : s.status = .running)
    (hlen : s.pc.toNat + i.operands.length < 256) (hop : s.mem.read s.pc.toNat = i.opcode)
    (hops : ∀ k b, i.operands[k]? = some b → s.mem.read (s.pc.toNat + (k + 1)) = b)
    (hexec : exec i (handlerStart s) = .next u) : StepEffect s (afterHandler u) := by
  have hp : s.pc.toNat < 256 := by omega
  have hrunning : (handlerStart s).status ≠ .faulted := by simp [hs]
  obtain ⟨rfl, he⟩ | ⟨d, v, hd, rfl, he⟩ | ⟨d, b, v, hd, -, rfl, he⟩ | ⟨r, hr, rfl, he⟩ | ⟨b, hb, -, -, he⟩ :=
    exec_cases i (handlerStart s)
  all_goals obtain rfl := Host.Outcome.next.inj (he.symm.trans hexec)
  case inl => exact stepEffect_afterHandler nofun (.halt hp hop)
  case inr.inl =>
    obtain ⟨hp1, hread⟩ := first_operand_read rfl hlen hops
    exact stepEffect_afterHandler hrunning (.writeRegister hp1 (.inl hop) d v hd hread)
  case inr.inr.inl =>
    obtain ⟨hp1, hread⟩ := first_operand_read rfl hlen hops
    exact stepEffect_afterHandler hrunning (.writeRegister hp1 (.inr hop) d v hd hread)
  case inr.inr.inr.inl =>
    obtain ⟨hp1, hread⟩ := first_operand_read rfl hlen hops
    exact stepEffect_afterHandler hrunning (.print hp1 hop r hr hread)
  case inr.inr.inr.inr =>
    have hhalt : s.mem.read s.pc.toNat ≠ 0x01#8 := by
      intro h
      obtain rfl := eq_halt_of_opcode (hop.symm.trans h)
      cases hb
    exact .operandFault hp hhalt _ _ (.inr rfl)

/-- Every step has one of the six effects. -/
theorem stepEffect_of_step {s t : State} (h : step s = .next t) : StepEffect s t := by
  have hs := running_of_step h
  obtain ⟨hp, hstep⟩ | ⟨hp, hd, hstep⟩ | ⟨_, k, -, h1, hcount, hk, hstep⟩ | ⟨i, u, hlen, hop, hops, hexec, hstep⟩ :=
    step_cases hs
  all_goals obtain rfl := Host.Outcome.next.inj (hstep.symm.trans h)
  case inl => exact .fetchFault hp
  case inr.inl => exact .unknownOpcode hp hd
  case inr.inr.inl =>
    have hhalt : s.mem.read s.pc.toNat ≠ 0x01#8 := by
      intro h
      rw [h, operandCount_table.1] at hcount
      omega
    exact .operandFault (by omega) hhalt _ _ (.inl rfl)
  case inr.inr.inr => exact stepEffect_of_exec hs hlen hop hops hexec

/-! ## What every step keeps and sets -/

/-- No step changes memory or the flags, and every step sets `started`. -/
theorem step_frame {s t : State} (h : step s = .next t) : t.mem = s.mem ∧ t.fl = s.fl ∧ t.started = true := by
  cases stepEffect_of_step h <;> exact ⟨rfl, rfl, rfl⟩

theorem step_mem {s t : State} (h : step s = .next t) : t.mem = s.mem := (step_frame h).1

theorem step_fl {s t : State} (h : step s = .next t) : t.fl = s.fl := (step_frame h).2.1

theorem step_started {s t : State} (h : step s = .next t) : t.started = true := (step_frame h).2.2

/-- A Running machine has a next state. -/
theorem exists_step {s : State} (hs : s.status = .running) : ∃ t, step s = .next t := by
  obtain ⟨-, h⟩ | ⟨-, -, h⟩ | ⟨_, _, -, -, -, -, h⟩ | ⟨_, _, -, -, -, -, h⟩ := step_cases hs <;> exact ⟨_, h⟩

/-- Settles O25: a step is enabled by the status alone, and no effect of a step leaves `started` unset. -/
theorem runningMachineAlwaysSteps : Obligations.RunningMachineAlwaysSteps :=
  fun _ => ⟨⟨exists_step, fun ⟨_, h⟩ => running_of_step h⟩, fun _ => step_started⟩

/-! ## The program counter and the instruction register -/

/-- No advance wraps in 9 bits. -/
theorem advancePc_pc_toNat {s : State} (hp : s.pc.toNat < 256) :
    (advancePc s).pc.toNat = s.pc.toNat + (operandCount s.ir + 1) := by
  have hcount : operandCount s.ir < 4 := (s.ir.extractLsb 7 6).isLt
  rw [advancePc_pc, instrLength, BitVec.toNat_ofNat, Nat.mod_eq_of_lt (by omega)]

/-- A step either stops where it is, or advances past the opcode at `pc` and its at most two operand bytes. -/
theorem step_pc_cases {s t : State} (h : step s = .next t) :
    (t.status ≠ .running ∧ memRead s.pc.toNat s ≠ .ok 0x01#8 ∧ t.pc = s.pc) ∨
    ((t.status = .running ∨ memRead s.pc.toNat s = .ok 0x01#8) ∧ s.pc.toNat < 256 ∧
      t.pc.toNat = s.pc.toNat + (operandCount t.ir + 1) ∧ operandCount t.ir ≤ 2) := by
  have hs := running_of_step h
  cases stepEffect_of_step h with
  | fetchFault hp =>
    refine .inl ⟨nofun, ?_, rfl⟩
    rw [memRead_error hp]
    nofun
  | unknownOpcode hp hd =>
    refine .inl ⟨nofun, fun hread => ?_, rfl⟩
    exact ((dispatch_eq_none_iff _).mp hd).1 (memRead_ok_iff.mp hread).2
  | operandFault hp hop => exact .inl ⟨nofun, fun hread => hop (memRead_ok_iff.mp hread).2, rfl⟩
  | halt hp hop =>
    refine .inr ⟨.inr (memRead_ok_iff.mpr ⟨hp, hop⟩), hp, advancePc_pc_toNat hp, ?_⟩
    simp [hop, operandCount_table.1]
  | writeRegister hp hop =>
    have hp0 : s.pc.toNat < 256 := by omega
    refine .inr ⟨.inl hs, hp0, advancePc_pc_toNat hp0, ?_⟩
    obtain hop | hop := hop <;> simp [hop, operandCount_table]
  | print hp hop =>
    have hp0 : s.pc.toNat < 256 := by omega
    refine .inr ⟨.inl hs, hp0, advancePc_pc_toNat hp0, ?_⟩
    simp [hop, operandCount_table]

/-- Settles O26: the two cases of a step's `pc`, with the length field written as R60's shift and mask. -/
theorem programCounterAdvanceLaw : Obligations.ProgramCounterAdvanceLaw := by
  intro s t h
  rw [← operandCount_eq_shift_and]
  obtain ⟨hstop, hhalt, hpc⟩ | ⟨hgoes, -, hpc, hcount⟩ := step_pc_cases h
  · exact ⟨fun hgoes => absurd hgoes (not_or.mpr ⟨hstop, hhalt⟩), fun _ => hpc⟩
  · exact ⟨fun _ => ⟨hpc, by omega⟩, fun hstays => absurd hgoes hstays⟩

/-- After a fetch from 0..255 that recorded its byte, `ir` is the byte at `pc`. -/
theorem ir_eq_of_recorded {s t : State} (hir : t.ir = s.mem.read s.pc.toNat) {op : Byte}
    (hread : memRead s.pc.toNat s = .ok op) : t.ir = op :=
  hir.trans (memRead_ok_iff.mp hread).2

/-- Settles O27: only the fetch that faults leaves `ir` as it was. -/
theorem fetchRecordsTheOpcode : Obligations.FetchRecordsTheOpcode := by
  intro s t h
  cases stepEffect_of_step h with
  | fetchFault hp => exact ⟨fun op hread => absurd (memRead_ok_iff.mp hread).1 (by omega), fun _ => rfl⟩
  | unknownOpcode hp | operandFault hp | halt hp | writeRegister hp | print hp =>
    exact ⟨fun _ => ir_eq_of_recorded rfl, fun habove => by omega⟩

/-! ## Registers, memory and output -/

/-- Settles O29: the destination of a register writer is the byte after its opcode, and no other effect writes a
register. -/
theorem onlyTheDestinationRegisterChanges : Obligations.OnlyTheDestinationRegisterChanges := by
  intro s t j h hchanged
  cases stepEffect_of_step h with
  | fetchFault | unknownOpcode | operandFault | halt | print => exact absurd rfl hchanged
  | writeRegister hp hop d v hd hread =>
    have hp0 : s.pc.toNat < 256 := by omega
    have hdest : j = ⟨d.toNat, hd⟩ := by
      by_contra hne
      exact hchanged ((getReg_setReg _ j v _).trans (if_neg hne))
    refine ⟨?_, d, memRead_ok_iff.mpr ⟨hp, hread⟩, (congrArg Fin.val hdest).symm⟩
    exact hop.imp (fun hop => memRead_ok_iff.mpr ⟨hp0, hop⟩) (fun hop => memRead_ok_iff.mpr ⟨hp0, hop⟩)

/-- Settles O30: only the effect of PRINT_REGISTER writes `out`. -/
theorem outputGrowsOnlyByPrintRegister : Obligations.OutputGrowsOnlyByPrintRegister := by
  intro s t h
  cases stepEffect_of_step h with
  | fetchFault | unknownOpcode | operandFault | halt | writeRegister => exact .inl rfl
  | print hp hop r hr hread =>
    exact .inr ⟨r, hr, memRead_ok_iff.mpr ⟨by omega, hop⟩, memRead_ok_iff.mpr ⟨hp, hread⟩, rfl⟩

/-- Settles O28: memory as a whole is kept, by induction on the rounds of the loop. -/
theorem memoryIsConstantInARun : Obligations.MemoryIsConstantInARun := by
  intro n s t h a
  induction n generalizing s with
  | zero => cases h; rfl
  | succ n ih =>
    by_cases hs : s.status = .running
    · obtain ⟨u, hu⟩ := exists_step hs
      rw [runLoop_succ_of_step n hs hu] at h
      exact (ih u h).trans (memRead_congr (step_mem hu) a)
    · rw [runLoop_of_not_running _ hs] at h
      cases h
      rfl

/-! ## Stopping -/

/-- Settles O32: a step that ends in Faulted raised in the fetch or at an operand byte. -/
theorem stepFaultsArePrecise : Obligations.StepFaultsArePrecise := by
  intro s t h hend
  have hs := running_of_step h
  cases stepEffect_of_step h with
  | fetchFault hp =>
    exact ⟨rfl, memRead_congr rfl, rfl, rfl, rfl, rfl, _, _, _, .inl rfl, rfl, rfl, .inl ⟨hp, rfl, rfl⟩⟩
  | operandFault hp hop c n hc =>
    exact ⟨rfl, memRead_congr rfl, rfl, rfl, rfl, rfl, c, _, n, hc, rfl, rfl, .inr ⟨memRead_ok hp, rfl⟩⟩
  | unknownOpcode | halt => cases hend
  | writeRegister | print => cases hs.symm.trans hend

/-- Settles O33: a step that ends in Halted halted at HALT or at an opcode outside the table. -/
theorem haltedOnlyByHaltOrUnknownOpcode : Obligations.HaltedOnlyByHaltOrUnknownOpcode := by
  intro s t h hend
  have hs := running_of_step h
  cases stepEffect_of_step h with
  | unknownOpcode hp hd =>
    obtain ⟨h1, h2, h3, h4⟩ := (dispatch_eq_none_iff _).mp hd
    exact ⟨rfl, rfl, memRead_ok hp, .inr ⟨h1, h2, h3, h4, rfl, rfl, rfl⟩⟩
  | halt hp hop =>
    exact ⟨rfl, rfl, memRead_ok hp, .inl ⟨hop, rfl, rfl, advancePc_pc_toNat_of_haltOpcode hp hop⟩⟩
  | fetchFault | operandFault => cases hend
  | writeRegister | print => cases hs.symm.trans hend

end Sys2Proof.Machine
end

section
/-! PROOFS. Two steps from states that differ in the flags only, and the bound on every run (spec/10_state.md R26;
spec/42_execution_loop.md R122). -/

namespace Sys2Proof.Machine

/-! ## The flags register is inert -/

/-- The state with another value in the flags register. -/
def withFl (f : Byte) (s : State) : State := { s with fl := f }

/-- The meaning of an instruction is a state update that neither reads nor writes `fl`. -/
theorem exec_commutes_withFl (i : Instr) :
    ∃ F : State → State, (∀ s, exec i s = .next (F s)) ∧ ∀ s f, F (withFl f s) = withFl f (F s) := by
  cases i with
  | halt => exact ⟨_, haltStopsTheMachine, fun _ _ => rfl⟩
  | loadImmediate r v =>
    obtain hr | hr := Nat.lt_or_ge r.toNat 8
    · exact ⟨_, fun s => loadImmediateWritesItsRegister s r v hr, fun _ _ => rfl⟩
    · exact ⟨_, fun s => finishHandler_register_error hr s _, fun _ _ => rfl⟩
  | multiply a b =>
    obtain ha | ha := Nat.lt_or_ge a.toNat 8
    · obtain hb | hb := Nat.lt_or_ge b.toNat 8
      · exact ⟨_, fun s => multiplyWritesTheProductModulo256 s a b ha hb, fun _ _ => rfl⟩
      · exact ⟨_, fun s => (registerIndexOfEightOrMoreFaults s a b).2 ha hb, fun _ _ => rfl⟩
    · exact ⟨_, fun s => finishHandler_register_error ha s _, fun _ _ => rfl⟩
  | printRegister r =>
    obtain hr | hr := Nat.lt_or_ge r.toNat 8
    · exact ⟨_, fun s => printRegisterAppendsTheRegister s r hr, fun _ _ => rfl⟩
    · exact ⟨_, fun s => finishHandler_register_error hr s _, fun _ _ => rfl⟩

/-- The bytes of an instruction stand at `pc` when they all lie in 0..255 and read as its opcode and operands. -/
theorem holdsBytes_encode {s : State} {i : Instr} (hlen : s.pc.toNat + i.operands.length < 256)
    (hop : s.mem.read s.pc.toNat = i.opcode)
    (hops : ∀ k b, i.operands[k]? = some b → s.mem.read (s.pc.toNat + (k + 1)) = b) :
    holdsBytes s s.pc.toNat (encode i) := by
  refine holdsBytes_cons (memRead_ok_iff.mpr ⟨by omega, hop⟩) fun k b hk => ?_
  obtain ⟨hlt, -⟩ := List.getElem?_eq_some_iff.mp hk
  rw [Nat.add_assoc, Nat.add_comm 1 k]
  exact memRead_ok_iff.mpr ⟨by omega, hops k b hk⟩

/-- Neither does the advance touch `fl`. -/
theorem afterHandler_withFl (f : Byte) (s : State) : afterHandler (withFl f s) = withFl f (afterHandler s) := by
  by_cases hs : s.status = .faulted
  · rw [afterHandler, afterHandler, if_pos hs]
    exact if_pos hs
  · rw [afterHandler, afterHandler, if_neg hs]
    exact if_neg hs

/-- The step from a state with other flags is the same step, with those flags kept: the same rule applies to both, as
memory, `pc` and status agree. -/
theorem step_withFl {s t : State} (h : step s = .next t) (f : Byte) : step (withFl f s) = .next (withFl f t) := by
  have hs := running_of_step h
  have hs' : (withFl f s).status = .running := hs
  obtain ⟨hp, hstep⟩ | ⟨hp, hd, hstep⟩ | ⟨_, k, hd, h1, hcount, hk, hstep⟩ | ⟨i, u, hlen, hop, hops, hexec, hstep⟩ :=
    step_cases hs
  all_goals obtain rfl := Host.Outcome.next.inj (hstep.symm.trans h)
  case inl => exact step_of_pc_above hs' hp
  case inr.inl => exact step_of_dispatch_none hs' hp hd
  case inr.inr.inl =>
    have hp : s.pc.toNat < 256 := by omega
    have habove : 256 ≤ s.pc.toNat + operandCount (s.mem.read s.pc.toNat) := by omega
    exact step_of_operand_above hs' hp hd habove
  case inr.inr.inr =>
    obtain ⟨F, hF, hfl⟩ := exec_commutes_withFl i
    obtain rfl := Host.Outcome.next.inj ((hF _).symm.trans hexec)
    have hat : holdsBytes (withFl f s) (withFl f s).pc.toNat (encode i) := holdsBytes_encode hlen hop hops
    have hstart : setIr i.opcode (beginStep (withFl f s)) = withFl f (handlerStart s) := by
      rw [handlerStart, hop]
      rfl
    rw [step_of_holdsBytes hs' hat (hF _), hstart, hfl, afterHandler_withFl]

/-- Whether a step is enabled does not depend on the flags. -/
theorem stepDisabled_withFl (f : Byte) (s : State) : stepDisabled (withFl f s) = stepDisabled s := rfl

/-- A step answers a fault exactly when the status enables no step. -/
theorem step_fault_iff {s : State} {e : Fault} : step s = .fault e ↔ stepDisabled s = some e := by
  obtain ⟨hhalted, hfaulted⟩ := stoppedMachineTakesNoStep s
  cases hs : s.status with
  | running =>
    obtain ⟨t, ht⟩ := exists_step hs
    simp [ht, stepDisabled_running hs]
  | halted => simp [hhalted hs, stepDisabled, hs]
  | faulted => simp [hfaulted hs, stepDisabled, hs]

/-- Settles O31: a step with a next state commutes with the choice of `fl`, and whether there is one does not depend on
it. -/
theorem flagsRegisterIsInert : Obligations.FlagsRegisterIsInert :=
  fun s f => ⟨fun _ h => ⟨step_fl h, step_withFl h f⟩,
    fun _ h => step_fault_iff.mpr ((stepDisabled_withFl f s).trans (step_fault_iff.mp h))⟩

/-! ## Every run stops -/

/-- A step that leaves the machine Running was fetched from 0..255 and moves `pc` up. -/
theorem step_pc_of_running {s t : State} (h : step s = .next t) (ht : t.status = .running) :
    s.pc.toNat < 256 ∧ s.pc.toNat < t.pc.toNat := by
  obtain ⟨hstop, -⟩ | ⟨-, hp, hpc, -⟩ := step_pc_cases h
  · exact absurd ht hstop
  · exact ⟨hp, by omega⟩

/-- From Running at `pc`, one round for each address from `pc` to 255 and one for the fetch above it are enough. -/
theorem runLoop_ends (n : Nat) (s : State) (hn : s.status = .running → 256 ≤ s.pc.toNat + n) :
    ∃ t, runLoop (n + 1) s = .next t ∧ t.ended := by
  induction n generalizing s with
  | zero =>
    by_cases hs : s.status = .running
    · obtain ⟨t, ht⟩ := exists_step hs
      refine ⟨t, runLoop_succ_of_step 0 hs ht, fun hrunning => ?_⟩
      have hpc := step_pc_of_running ht hrunning
      have := hn hs
      omega
    · exact ⟨s, runLoop_of_not_running _ hs, hs⟩
  | succ n ih =>
    by_cases hs : s.status = .running
    · obtain ⟨t, ht⟩ := exists_step hs
      rw [runLoop_succ_of_step (n + 1) hs ht]
      refine ih t fun hrunning => ?_
      have hpc := step_pc_of_running ht hrunning
      have := hn hs
      omega
    · exact ⟨s, runLoop_of_not_running _ hs, hs⟩

/-- Settles O36: 257 rounds are enough from address 0, and so from every state. -/
theorem everyRunStopsWithin257Steps : Obligations.EveryRunStopsWithin257Steps := by
  intro s
  obtain ⟨t, ht, hended⟩ := runLoop_ends 256 s fun _ => Nat.le_add_left _ _
  exact ⟨t, ht, ht, hended⟩

end Sys2Proof.Machine
end

section
/-! PROOFS. Memory, the load port and the boot sequence (spec/20_memory.md R40 to R44; spec/70_reset_and_hazards.md
R150 to R152). -/

namespace Sys2Proof.Machine

/-! ## Memory -/

/-- Settles O42: the one cell written, and the bounds fault of both accesses above 255. -/
theorem memoryReadsBackWhatWasWritten : Obligations.MemoryReadsBackWhatWasWritten := by
  intro a v s
  refine ⟨fun ha => ?_, fun ha => ⟨if_neg ?_, memRead_error ha⟩⟩
  · have hlt : a < 256 := Nat.lt_succ_of_le ha
    refine ⟨_, memWrite_ok v s hlt, ?_, fun b hb => ?_, rfl⟩
    · rw [memRead_ok hlt, Memory.read_write, if_pos rfl]
    · simp only [memRead, Memory.read_write, if_neg hb]
  · exact Nat.not_lt.mpr ha

/-- An address that no cell has reads as an unlisted one. -/
theorem Memory.read_eq_unlisted {m : Memory} {a : Nat} (h : ∀ c ∈ m, c.1 ≠ a) : m.read a = Memory.unlisted := by
  simpa [Memory.read] using Memory.read_append_of_absent h []

/-- A cell of a canonical memory is read at its address. -/
theorem Memory.read_of_mem {m : Memory} (hm : m.Pairwise fun c d => c.1 < d.1) {c : Host.Cell} (hc : c ∈ m) :
    m.read c.1 = c.2 := by
  induction m with
  | nil => cases hc
  | cons d m ih =>
    obtain ⟨hd, hm⟩ := List.pairwise_cons.mp hm
    obtain rfl | hc := List.mem_cons.mp hc
    · exact if_pos rfl
    · exact (if_neg (hd c hc).ne).trans (ih hm hc)

/-- The cells of a canonical memory are the addresses below 256 that do not read as an unlisted one, with their bytes. -/
theorem Memory.mem_iff_read {m : Memory} (hm : m.wf) (c : Host.Cell) :
    c ∈ m ↔ c.1 < 256 ∧ c.2 ≠ Memory.unlisted ∧ m.read c.1 = c.2 := by
  obtain ⟨hsorted, hcells⟩ := hm
  constructor
  · intro hc
    obtain ⟨hlt, hv⟩ := hcells c hc
    exact ⟨hlt, hv, Memory.read_of_mem hsorted hc⟩
  · rintro ⟨-, hv, hread⟩
    by_contra hc
    have habsent : ∀ d ∈ m, d.1 ≠ c.1 := by
      intro d hd haddr
      have hbyte : d.2 = c.2 := (Memory.read_of_mem hsorted hd).symm.trans (haddr ▸ hread)
      exact hc (Prod.ext haddr hbyte ▸ hd)
    exact hv (hread.symm.trans (Memory.read_eq_unlisted habsent))

/-- Settles O43: reading determines the cells, and their order determines the list. -/
theorem canonicalMemoriesThatReadAlikeAreEqual : Obligations.CanonicalMemoriesThatReadAlikeAreEqual := by
  intro m n hm hn hread
  have hcells : ∀ c, c ∈ m ↔ c ∈ n := by
    intro c
    rw [Memory.mem_iff_read hm, Memory.mem_iff_read hn]
    exact and_congr_right fun hlt => by rw [hread c.1 hlt]
  have nodup : ∀ {l : Memory}, l.Pairwise (fun c d => c.1 < d.1) → l.Nodup := fun hl =>
    hl.imp fun hlt heq => absurd (congrArg Prod.fst heq) hlt.ne
  have hperm : m.Perm n := (List.perm_ext_iff_of_nodup (nodup hm.1) (nodup hn.1)).mpr hcells
  exact hperm.eq_of_pairwise (fun c d _ _ hcd hdc => absurd hcd hdc.asymm) hm.1 hn.1

/-! ## The load port -/

theorem load_of_started {s : State} (h : s.started = true) (img : List Byte) :
    load img s = .refused .loadAfterStart := if_pos h

theorem load_overflow {s : State} (h : s.started = false) {img : List Byte} (hlen : 256 < img.length) :
    load img s = .next (raiseFault none ⟨.loadOverflow, img.length⟩ s) := by
  have hover : Config.memSize < img.length := hlen
  rw [load, if_neg (by simp [h]), if_pos hover]

/-- A load that fits replaces memory alone, keeps its canonical form, and lays the image from address 0 on. -/
theorem load_ok {s : State} (h : s.started = false) {img : List Byte} (hlen : img.length ≤ 256) :
    ∃ m : Memory, load img s = .next { s with mem := m } ∧
      (∀ a, m.read a = img[a]?.getD (s.mem.read a)) ∧ (s.mem.wf → m.wf) := by
  obtain ⟨m, hm, hread, hwf⟩ := memWriteAll_ok img 0 s (by omega)
  have hfits : ¬ Config.memSize < img.length := Nat.not_lt.mpr hlen
  refine ⟨m, ?_, by simpa using hread, hwf⟩
  rw [load, if_neg (by simp [h]), if_neg hfits, hm]

/-- Settles O44: the image and the tail of memory, read through `load_ok`. -/
theorem loadWritesTheImageFromAddressZero : Obligations.LoadWritesTheImageFromAddressZero := by
  intro img s hs hlen
  obtain ⟨m, hload, hread, -⟩ := load_ok hs hlen
  refine ⟨_, hload, rfl, fun a b hb => ?_, fun a ha => ?_⟩
  · obtain ⟨ha, -⟩ := List.getElem?_eq_some_iff.mp hb
    exact memRead_ok_iff.mpr ⟨by omega, by simp [hread, hb]⟩
  · simp [memRead, hread, List.getElem?_eq_none ha]

/-- Settles O45: the two tests of the load port, in their order. -/
theorem loadRefusesLateImagesAndFaultsOnLongOnes : Obligations.LoadRefusesLateImagesAndFaultsOnLongOnes :=
  fun img _ => ⟨fun h => load_of_started h img, fun h hlen => load_overflow h hlen⟩

/-- Settles O46: every step sets `started`, which the load port tests first. -/
theorem noLoadAfterAStep : Obligations.NoLoadAfterAStep := fun _ _ img h => load_of_started (step_started h) img

/-! ## The invariant of the machine -/

/-- Settles O39: no cell, `pc` 0 and no stop recorded. -/
theorem resetIsConsistent : Obligations.ResetIsConsistent where
  memoryCanonical := ⟨.nil, nofun⟩
  pcReachable := Nat.zero_le _
  stopRecorded := ⟨rfl, rfl⟩
  freshBeforeStart := fun _ => ⟨rfl, rfl, nofun⟩

/-- The record of a fault agrees with the status Faulted, whatever stands before it in `diag`. -/
theorem raiseFault_stopRecorded {r : Raise} (hc : statusAfter (some r.cause) = .faulted) {op : Option Byte} {s : State}
    (hop : op = none ∨ op = some s.ir) : (raiseFault op r s).stopRecorded :=
  ⟨r.cause, op, r.info, rfl, hc, hop, List.getLast?_concat⟩

/-- A consistent machine stays consistent with another canonical memory: no other part of the invariant speaks of
memory. -/
theorem State.Consistent.with_mem {s : State} (hs : s.Consistent) {m : Memory} (hm : m.wf) :
    State.Consistent { s with mem := m } where
  memoryCanonical := hm
  pcReachable := hs.pcReachable
  stopRecorded := hs.stopRecorded
  freshBeforeStart := hs.freshBeforeStart

/-- Settles O38: a load is refused, records an overflow, or writes memory in its canonical form. -/
theorem loadKeepsTheMachineConsistent : Obligations.LoadKeepsTheMachineConsistent := by
  intro img s t hs h
  cases hstarted : s.started with
  | true => cases (load_of_started hstarted img).symm.trans h
  | false =>
    obtain ⟨hpc, hout, -⟩ := hs.freshBeforeStart hstarted
    obtain hlen | hlen := Nat.lt_or_ge 256 img.length
    · obtain rfl := Host.Outcome.next.inj ((load_overflow hstarted hlen).symm.trans h)
      exact ⟨hs.memoryCanonical, hs.pcReachable, raiseFault_stopRecorded rfl (.inl rfl), fun _ => ⟨hpc, hout, nofun⟩⟩
    · obtain ⟨m, hload, -, hwf⟩ := load_ok hstarted hlen
      obtain rfl := Host.Outcome.next.inj (hload.symm.trans h)
      exact hs.with_mem (hwf hs.memoryCanonical)

/-- A step's `pc` stays in reach: an advance starts below 256 and adds at most 3. -/
theorem step_pc_le {s t : State} (hs : s.pc.toNat ≤ 258) (h : step s = .next t) : t.pc.toNat ≤ 258 := by
  obtain ⟨-, -, hpc⟩ | ⟨-, hp, hpc, hcount⟩ := step_pc_cases h
  · exact hpc ▸ hs
  · omega

/-- A step from a Running machine that has recorded no stop leaves a record that agrees with its status. -/
theorem step_stopRecorded {s t : State} (hcause : s.cause = none) (hdiag : s.diag = []) (h : step s = .next t) :
    t.stopRecorded := by
  have hs := running_of_step h
  cases stepEffect_of_step h with
  | fetchFault => exact raiseFault_stopRecorded rfl (.inl rfl)
  | operandFault hp hop c n hc => exact raiseFault_stopRecorded (by obtain rfl | rfl := hc <;> rfl) (.inr rfl)
  | unknownOpcode => exact .inr ⟨rfl, by simp [hdiag]⟩
  | halt hp hop => exact .inl ⟨rfl, hop, hdiag⟩
  | writeRegister | print => simp [State.stopRecorded, hs, hcause, hdiag]

/-- Settles O37: memory is kept, `pc` stays in reach, the stop is recorded, and the machine is no longer fresh. -/
theorem stepKeepsTheMachineConsistent : Obligations.StepKeepsTheMachineConsistent := by
  intro s t hs h
  have hrecord := hs.stopRecorded
  rw [State.stopRecorded, running_of_step h] at hrecord
  obtain ⟨hcause, hdiag⟩ := hrecord
  exact {
    memoryCanonical := step_mem h ▸ hs.memoryCanonical
    pcReachable := step_pc_le hs.pcReachable h
    stopRecorded := step_stopRecorded hcause hdiag h
    freshBeforeStart := fun hfresh => by simp [step_started h] at hfresh }

/-! ## Reset and boot -/

/-- Settles O40: each field of `State.reset`, and memory read through its empty list of cells. -/
theorem resetValues : Obligations.ResetValues :=
  ⟨fun _ ha => memRead_ok ha, by decide, rfl, rfl, rfl, rfl, rfl, rfl, rfl, rfl, rfl⟩

/-- Settles O41: the byte at address 0 reads as 0x00, which is outside the table. -/
theorem emptyMachineHaltsOnItsFirstStep : Obligations.EmptyMachineHaltsOnItsFirstStep :=
  step_of_dispatch_none (s := State.reset) rfl (by decide) rfl

/-- Loads that fit, into a machine on which no step has run, leave it consistent and change memory alone. -/
theorem loadAll_ok {imgs : List (List Byte)} (hlen : ∀ img ∈ imgs, img.length ≤ 256) {s : State}
    (hstarted : s.started = false) (hs : s.Consistent) :
    ∃ t, loadAll imgs s = .next t ∧ t = { s with mem := t.mem } ∧ t.Consistent := by
  induction imgs generalizing s with
  | nil => exact ⟨s, rfl, rfl, hs⟩
  | cons img imgs ih =>
    obtain ⟨hfits, hrest⟩ := List.forall_mem_cons.mp hlen
    obtain ⟨m, hload, -, -⟩ := load_ok hstarted hfits
    obtain ⟨t, ht, hframe, hcons⟩ :=
      ih hrest (s := { s with mem := m }) hstarted (loadKeepsTheMachineConsistent img s _ hs hload)
    exact ⟨t, by rw [loadAll, hload]; exact ht, hframe, hcons⟩

/-- Settles O47: the boot sequence is loads into the consistent machine that reset leaves. -/
theorem bootLeavesTheMachineReadyToRun : Obligations.BootLeavesTheMachineReadyToRun :=
  fun _ hlen => loadAll_ok hlen rfl resetIsConsistent

end Sys2Proof.Machine
end

section
/-! PROOFS. The texts around the machine: the digits of the output and the lines of the assembler
(spec/10_state.md R31; spec/30_encoding.md R70, R71). -/

namespace Sys2Proof.Machine

/-! ## Decimal digits -/

theorem digitValue_digitChar {d : Nat} (h : d < 10) : digitValue (digitChar d) = some d := by
  interval_cases d <;> rfl

theorem digitChar_ne_zero {d : Nat} (hpos : 0 < d) (h : d < 10) : digitChar d ≠ '0' := by
  interval_cases d <;> decide

/-- Reading a decimal numeral from left to right is Horner's rule. -/
theorem digitsValue_map_digitChar {ds : List Nat} (hne : ds ≠ []) (h : ∀ d ∈ ds, d < 10) :
    digitsValue 10 (ds.map digitChar) = some (ds.foldl (fun n d => n * 10 + d) 0) := by
  rw [digitsValue, if_neg (by simpa using hne)]
  generalize 0 = n
  clear hne
  induction ds generalizing n with
  | nil => rfl
  | cons d ds ih =>
    obtain ⟨hd, hds⟩ := List.forall_mem_cons.mp h
    simp only [List.map_cons, List.foldl_cons, digitValue_digitChar hd, if_pos hd]
    exact ih hds _

/-- The digits of a byte as numbers, by its size. -/
theorem decimalDigits_cases (v : Byte) :
    (v.toNat < 10 ∧ decimalDigits v = [v.toNat].map digitChar) ∨
    (10 ≤ v.toNat ∧ v.toNat < 100 ∧ decimalDigits v = [v.toNat / 10, v.toNat % 10].map digitChar) ∨
    (100 ≤ v.toNat ∧ decimalDigits v = [v.toNat / 100, v.toNat / 10 % 10, v.toNat % 10].map digitChar) := by
  by_cases h10 : v.toNat < 10
  · exact .inl ⟨h10, if_pos h10⟩
  · by_cases h100 : v.toNat < 100
    · exact .inr (.inl ⟨by omega, h100, (if_neg h10).trans (if_pos h100)⟩)
    · exact .inr (.inr ⟨by omega, (if_neg h10).trans (if_neg h100)⟩)

/-- Settles O48: one, two or three digits, of which the first is the leading one of the byte. -/
theorem renderedDigitsDenoteTheByte : Obligations.RenderedDigitsDenoteTheByte := by
  intro v
  refine ⟨?value, fun hv => ?leading, fun hv => by rw [hv]; rfl⟩
  case value =>
    have hv : v.toNat < 256 := v.isLt
    obtain ⟨h10, hds⟩ | ⟨h10, h100, hds⟩ | ⟨h100, hds⟩ := decimalDigits_cases v
    all_goals
      rw [hds, digitsValue_map_digitChar (List.cons_ne_nil _ _)
        (by simp only [List.mem_cons, List.not_mem_nil, or_false, forall_eq_or_imp, forall_eq]; omega)]
      simp only [List.foldl_cons, List.foldl_nil]
      congr 1
      omega
  case leading =>
    have hv : 0 < v.toNat := Nat.pos_of_ne_zero fun h => hv (BitVec.eq_of_toNat_eq h)
    have hv256 : v.toNat < 256 := v.isLt
    obtain ⟨h10, hds⟩ | ⟨h10, h100, hds⟩ | ⟨h100, hds⟩ := decimalDigits_cases v
    all_goals
      simp only [hds, List.map_cons, List.head?_cons, ne_eq, Option.some.injEq]
      exact digitChar_ne_zero (by omega) (by omega)

/-! ## Assembler lines -/

/-- A register's number is the index of a register that exists. -/
theorem isRegisterIndex_registerByte (r : RegIdx) : isRegisterIndex (registerByte r) = true := by
  have hlt : r.val < 256 := by omega
  have hnat : (registerByte r).toNat = r.val := (BitVec.toNat_ofNat _ _).trans (Nat.mod_eq_of_lt hlt)
  simp [isRegisterIndex, hnat]

/-- Settles O49: a line's bytes are the encoding of its instruction, which decodes back. -/
theorem assembledInstructionsDecodeBack : Obligations.AssembledInstructionsDecodeBack := by
  refine ⟨fun rest => ?_, fun r v rest => ?_, fun a b rest => ?_, fun r rest => ?_, fun _ _ => rfl⟩
  · exact ⟨rfl, rfl, decode_encode_append _ rest⟩
  · exact ⟨rfl, isRegisterIndex_registerByte r, decode_encode_append _ rest⟩
  · have hab := Bool.and_eq_true_iff.mpr ⟨isRegisterIndex_registerByte a, isRegisterIndex_registerByte b⟩
    exact ⟨rfl, hab, decode_encode_append _ rest⟩
  · exact ⟨rfl, isRegisterIndex_registerByte r, decode_encode_append _ rest⟩

end Sys2Proof.Machine
end
